-- ==== Sys2Proof/Word.lean ====
section
/-! DEFINITION. The word types of the NAF-DBM unit. The machine has 32-bit host and micro-operation words, 8-bit
digits and 256-bit scalars (spec/00_scope.md R9). -/

namespace Sys2Proof

/-- A host register word, a command word or a micro-operation word (R9 `REG_BITS`, `UOP_BITS`). -/
abbrev Word := BitVec 32

/-- A stored digit (R9 `DIGIT_BITS`). -/
abbrev Byte := BitVec 8

/-- A scalar register or the encoder's residual (R9 `SCALAR_BITS`). -/
abbrev Scalar := BitVec 256

/-- A host word address (R9 `ADDR_BITS`). -/
abbrev HostAddr := BitVec 10

/-- The number of a point slot (R9 `SLOT_BITS`). -/
abbrev SlotNum := BitVec 7

end Sys2Proof
end

