-- ==== Sys2Proof/Syntax.lean ====
section
/-! DEFINITION. The instructions: the three host commands and the seven micro-operations, one constructor for each row
of spec/opcode_table.json (spec/00_scope.md R13), and the operand names they carry. -/

namespace Sys2Proof

/-- Which scalar and digit memory (`SEL` of `ENC`, `ERRSEL`, `esel`; 30_encoding R91): `a` is `SA` and `NA` (0), `b` is `SB` and
`NB` (1). -/
inductive Sel where
  | a
  | b
  deriving DecidableEq, Repr, Inhabited

/-- The point slots by name (10_state R40). Every 7-bit slot number names exactly one of these, the unassigned numbers
`0x4E` to `0x7E` included. -/
inductive Slot where
  /-- `TB[j]`, numbers `0x00 + j`, the constant table of B. -/
  | tb (j : Fin 64)
  /-- `TA[j]`, numbers `0x40 + j`, the table of A. -/
  | ta (j : Fin 8)
  | ain
  | d
  | acc
  | e
  | tmp
  | rout
  /-- The numbers `0x4E + k`, never named by the unit. -/
  | unassigned (k : Fin 49)
  /-- `NONE`, the mark of an unused operand field. -/
  | none
  deriving DecidableEq, Repr, Inhabited

/-- The instructions. A micro-operation carries all three slot fields of format P (30_encoding R97), so that no bit of a word
is dropped; which field values the unit can issue is `Instr.wellFormed` (R99). -/
inductive Instr where
  /-- `ENC S[sel], w` (40_naf_encoder R120). -/
  | enc (w : BitVec 4) (sel : Sel)
  /-- `MUL` (42_multiplier R170). -/
  | mul
  /-- `MULS` (42_multiplier R171). -/
  | muls
  /-- `IDENT dst` (43_point_ops R214). -/
  | ident (dst src1 src2 : Slot)
  /-- `DBL dst, src1` (R215). -/
  | dbl (dst src1 src2 : Slot)
  /-- `ADD dst, src1, src2` (R216). -/
  | add (dst src1 src2 : Slot)
  /-- `SUB dst, src1, src2` (R217). -/
  | sub (dst src1 src2 : Slot)
  /-- `TODBL dst, src1` (R218). -/
  | todbl (dst src1 src2 : Slot)
  /-- `TOSTO dst, src1` (R219). -/
  | tosto (dst src1 src2 : Slot)
  /-- `TOEXT dst, src1` (R220). -/
  | toext (dst src1 src2 : Slot)
  deriving DecidableEq, Repr, Inhabited

end Sys2Proof
end

