-- ==== Sys2Proof/Decode.lean ====
section
/-! DEFINITION. Decoding of the two word formats of spec/30_encoding.md (format H, R91 to R94; format P, R96 to R100), total on
32-bit words and refusing by name, and the encoder of the same formats. A word has no byte lanes and no byte order
(20_memory R65, R67), so the decoder reads one whole word. -/

namespace Sys2Proof

/-- Why a word written to `CMD` is no command (30_encoding R94). -/
inductive CmdError where
  /-- `OP` is 0 or 4 to 15 (60_exceptions R232). -/
  | illegalOp
  /-- A legal `OP` with a reserved bit that is 1 (R237). -/
  | reservedBits
  deriving DecidableEq, Repr

/-- Why a word is no micro-operation (30_encoding R97, R100). -/
inductive UopError where
  /-- `POP` is 0 or 8 to 15. -/
  | reservedPop
  /-- A bit of 27:21, always 0 in a word of format P, is 1. -/
  | reservedBits
  deriving DecidableEq, Repr

/-- Why a word is of neither format. -/
inductive DecodeError where
  | cmd (e : CmdError)
  | uop (e : UopError)
  deriving DecidableEq, Repr

/-- The bit of a select field: 0 is a, 1 is b (30_encoding R91). -/
def selBit : Sel → Bool
  | .a => false
  | .b => true

/-- The select a bit names (30_encoding R91). -/
def selOfBit : Bool → Sel
  | false => .a
  | true => .b

/-- The number of a slot (30_encoding R96). -/
def slotNumber : Slot → SlotNum
  | .tb j => BitVec.ofNat 7 j.val
  | .ta j => BitVec.ofNat 7 (0x40 + j.val)
  | .ain => 0x48
  | .d => 0x49
  | .acc => 0x4A
  | .e => 0x4B
  | .tmp => 0x4C
  | .rout => 0x4D
  | .unassigned k => BitVec.ofNat 7 (0x4E + k.val)
  | .none => 0x7F

/-- The slot a number names (30_encoding R96). -/
def slotOfNumber (n : SlotNum) : Slot :=
  if h : n.toNat < 0x40 then .tb ⟨n.toNat, h⟩
  else if h : n.toNat < 0x48 then .ta ⟨n.toNat - 0x40, by omega⟩
  else if n = 0x48 then .ain
  else if n = 0x49 then .d
  else if n = 0x4A then .acc
  else if n = 0x4B then .e
  else if n = 0x4C then .tmp
  else if n = 0x4D then .rout
  else if h : 0x4E ≤ n.toNat ∧ n.toNat < 0x7F then .unassigned ⟨n.toNat - 0x4E, by omega⟩
  else .none

/-- Format H: the command a word written to `CMD` is (30_encoding R91 to R94). `OP` is examined first, then the reserved bits
(60_exceptions R235); the window width is left to the meaning of `ENC` (R92). -/
def decodeCmd (w : Word) : Except CmdError Instr :=
  if w.extractLsb' 0 4 = 1 then
    if w.extractLsb' 9 23 = 0 then .ok (.enc (w.extractLsb' 4 4) (selOfBit w[8]))
    else .error .reservedBits
  else if w.extractLsb' 0 4 = 2 then
    if w.extractLsb' 4 28 = 0 then .ok .mul else .error .reservedBits
  else if w.extractLsb' 0 4 = 3 then
    if w.extractLsb' 4 28 = 0 then .ok .muls else .error .reservedBits
  else .error .illegalOp

/-- The point operation of a `POP` code, on three slots (30_encoding R98). -/
def uopOfCode (pop : BitVec 4) (dst src1 src2 : Slot) : Except UopError Instr :=
  match pop.toNat with
  | 1 => .ok (.ident dst src1 src2)
  | 2 => .ok (.dbl dst src1 src2)
  | 3 => .ok (.add dst src1 src2)
  | 4 => .ok (.sub dst src1 src2)
  | 5 => .ok (.todbl dst src1 src2)
  | 6 => .ok (.tosto dst src1 src2)
  | 7 => .ok (.toext dst src1 src2)
  | _ => .error .reservedPop

/-- Format P: the micro-operation a word sent to the point unit is (30_encoding R97, R98). Whether it is one the unit can
issue (R99) is left to its meaning. -/
def decodeUop (w : Word) : Except UopError Instr :=
  if w.extractLsb' 21 7 = 0 then
    uopOfCode (w.extractLsb' 28 4) (slotOfNumber (w.extractLsb' 14 7))
      (slotOfNumber (w.extractLsb' 7 7)) (slotOfNumber (w.extractLsb' 0 7))
  else .error .reservedBits

/-- Whether a word is read as format H. Bits 31:28 of every command are 0 and of every micro-operation are not (30_encoding
R91, R98); `POP` 0 is never issued (R100). Log entry 16. -/
def isFormatH (w : Word) : Bool := decide (w.extractLsb' 28 4 = 0)

/-- A word of either format. The unit itself never has to tell the formats apart (`CMD` takes format H, the point unit takes
format P); this is the reading of spec/opcode_table.json as one table. -/
def decodeWord (w : Word) : Except DecodeError Instr :=
  if isFormatH w then
    match decodeCmd w with
    | .ok i => .ok i
    | .error e => .error (.cmd e)
  else
    match decodeUop w with
    | .ok i => .ok i
    | .error e => .error (.uop e)

/-- The table's reading of an instruction whose bits are `w`: every row of spec/opcode_table.json has 32 bits, one whole
word. -/
def decodeTableWord (nbits w : Nat) : Option Instr :=
  match decodeWord (BitVec.ofNat 32 (w % 2 ^ nbits)) with
  | .ok i => some i
  | .error _ => none

/-- The word `(POP << 28) | (DST << 14) | (SRC1 << 7) | SRC2` (30_encoding R97). -/
def uopWord (pop : BitVec 4) (dst src1 src2 : Slot) : Word :=
  (pop.setWidth 32 <<< 28) ||| ((slotNumber dst).setWidth 32 <<< 14)
    ||| ((slotNumber src1).setWidth 32 <<< 7) ||| (slotNumber src2).setWidth 32

/-- The word of an instruction: `1 | (W << 4) | (SEL << 8)` for `ENC` (30_encoding R92), 2 for `MUL`, 3 for `MULS` (R93), and
format P with the codes of R98 for the micro-operations. -/
def encode : Instr → Word
  | .enc w sel => 1#32 ||| (w.setWidth 32 <<< 4) ||| ((BitVec.ofBool (selBit sel)).setWidth 32 <<< 8)
  | .mul => 2
  | .muls => 3
  | .ident dst src1 src2 => uopWord 1 dst src1 src2
  | .dbl dst src1 src2 => uopWord 2 dst src1 src2
  | .add dst src1 src2 => uopWord 3 dst src1 src2
  | .sub dst src1 src2 => uopWord 4 dst src1 src2
  | .todbl dst src1 src2 => uopWord 5 dst src1 src2
  | .tosto dst src1 src2 => uopWord 6 dst src1 src2
  | .toext dst src1 src2 => uopWord 7 dst src1 src2

end Sys2Proof
end

