-- ==== Sys2Proof/Config.lean ====
section
/-! DEFINITION. What one implementation fixes (spec/00_scope.md R9) and the values the spec leaves open: the point forms, the
point functions and the constant table of B (parameters, R210, R158, decision D39), and the free values of
spec/93_implementation_defined.md U1 and U3. Every open value is a constant with no body, so nothing proved about the
model can rest on what it is. -/

namespace Sys2Proof

/-- A point value in doubling-optimized form (R39, R210 `PD`). The spec leaves the type open. Log entry 4: DESIGN CHOICE,
a value is named by a number and no operation of the model looks at it. -/
structure PD where
  code : Nat
  deriving DecidableEq, Repr, Inhabited

/-- A point value in intermediate form, the result of a mixed add or subtract (R39, R210 `PI`; log entry 4). -/
structure PI where
  code : Nat
  deriving DecidableEq, Repr, Inhabited

/-- A point value in storage form, a table entry (R39, R210 `PS`; log entry 4). -/
structure PS where
  code : Nat
  deriving DecidableEq, Repr, Inhabited

/-- A point value in external form, a result (R39, R210 `PX`; log entry 4). -/
structure PX where
  code : Nat
  deriving DecidableEq, Repr, Inhabited

namespace Config

/-- Number of digit positions of a sequence (R9 `NDIGITS`). -/
abbrev nDigits : Nat := 256

/-- Hard-wired window width for scalar a and the table of A (R9 `WA`, R10). -/
abbrev wa : BitVec 4 := 5

/-- Hard-wired window width for scalar b and the table of B (R9 `WB`, R10). -/
abbrev wb : BitVec 4 := 8

/-- Least window width of `ENC` (R9 `W_MIN`). -/
abbrev wMin : Nat := 2

/-- Greatest window width of `ENC` (R9 `W_MAX`). -/
abbrev wMax : Nat := 8

/-- `identity : PD` of the point unit (R210). Free: log entry 4. -/
opaque identity : PD

/-- `double : PD -> PD` of the point unit (R210). Free: log entry 4. -/
opaque double : PD → PD

/-- `cadd : PD -> PS -> PI` of the point unit (R210). Free: log entry 4. -/
opaque cadd : PD → PS → PI

/-- `csub : PD -> PS -> PI` of the point unit (R210). Free: log entry 4. -/
opaque csub : PD → PS → PI

/-- `toDbl : PI -> PD` of the point unit (R210). Free: log entry 4. -/
opaque toDbl : PI → PD

/-- `toSto : PD -> PS` of the point unit (R210). Free: log entry 4. -/
opaque toSto : PD → PS

/-- `toExt : PD -> PX` of the point unit (R210). Free: log entry 4. -/
opaque toExt : PD → PX

/-- `TBconst`, the 64 constants of the table of B (R9, R43, R158). Free: log entry 4. -/
opaque tbConst : Fin 64 → PS

/-- `L`, the group order (R9). No rule of the unit reads it, and no definition of the model does. Free: log entry 4. -/
opaque groupOrder : Nat

/-- The word that the `n`-th host read returns when the spec leaves it unspecified because `BUSY = 1` (R73, U1). Free: log
entry 5. -/
opaque busyRead : Nat → Word

/-- The byte that a digit nothing has written since reset reads as, at read number `n` and digit address `a` (R45, U3). Free:
log entry 6. -/
opaque unwrittenDigit : Nat → Nat → Byte

end Config

end Sys2Proof
end

