-- ==== Sys2Proof/Machine/State.lean ====
section
/-! DEFINITION. The state of the unit (spec/10_state.md R20 to R46), its value after reset (R45) and the reasons a step can
stop. Plain data. The last four fields of `State` are the model's own. -/

namespace Sys2Proof.Machine

/-- The reasons the model stops with a fault. The unit's own faults (60_exceptions R231) are no stop: they are next states
with `STATUS.ERR = 1`. -/
inductive Fault where
  /-- A slot that holds no value was read: by a micro-operation (10_state R42, 60_exceptions R240: "a fault of the model"), or by
  the host's read of `ROUT` (R45, log entry 11). Raised by `performUop` and `hostReadPoint`. Safe: the hardware goes on
  and the model claims nothing. -/
  | emptySlot
  deriving DecidableEq, Repr

/-- The reasons the model refuses. -/
inductive Refusal where
  /-- No meaning for the instruction yet, by its mnemonic. Raised by `exec` alone; no arm raises it now. Safe. -/
  | notModelled (mnemonic : String)
  /-- The point unit was given a word that is not in the table of 30_encoding R99; R100 and U17 of 93: "a model refuses it". Raised
  by `performUop` and `pointUnit`. Safe: the unit never issues such a word. -/
  | outsideUopTable
  /-- The host touched a point slot while `BUSY = 1`; 70_reset R271 and U18 of 93 give the host no such move. Raised by
  `hostSetPoint` and `hostReadPoint`. Safe (log entry 12). -/
  | pointSlotWhileBusy
  deriving DecidableEq, Repr

/-- `STATUS` (10_state R24). Bits 3 and 31:9 are no storage: they read 0. -/
structure Status where
  busy : Bool
  done : Bool
  err : Bool
  errCode : BitVec 4
  errSel : Sel
  deriving DecidableEq, Repr, Inhabited

/-- The hidden encoder state (10_state R29 to R32). -/
structure EncState where
  /-- `ex`, the residual shift register (R29). -/
  ex : Scalar
  /-- `ec`, the pending carry (R30). -/
  ec : Bool
  /-- `ez`, the zero-run counter (R31). -/
  ez : BitVec 3
  /-- `epos`, the position written next (R32). -/
  epos : BitVec 9
  /-- `ew`, the latched window width (R32). -/
  ew : BitVec 4
  /-- `esel`, the latched destination (R32). -/
  esel : Sel
  deriving DecidableEq, Repr, Inhabited

/-- The phase `q` (10_state R33). -/
inductive Phase where
  | idle
  | eRun
  | mEncA
  | mEncB
  | mTbl
  | mScan
  | mInit
  | mLoop
  | mOut
  deriving DecidableEq, Repr, Inhabited

/-- The loop sub-step `lsub` (10_state R36). -/
inductive LoopSub where
  | lDbl
  | lA
  | lAcv
  | lB
  | lBcv
  | lNext
  deriving DecidableEq, Repr, Inhabited

/-- The hidden sequencer state (10_state R33 to R37), the unit's control position. -/
structure SeqState where
  /-- `q`, the phase (R33). -/
  q : Phase
  /-- `tstep`, the index of the next micro-operation of the table build (R34). -/
  tstep : BitVec 5
  /-- `li`, the loop's digit position (R35). -/
  li : BitVec 8
  /-- `lsub`, the sub-step of an iteration (R36). -/
  lsub : LoopSub
  /-- `diag`, 1 while a `MULS` runs (R37). -/
  diag : Bool
  deriving DecidableEq, Repr, Inhabited

/-- The point slots that are state (10_state R40). A slot that nothing has written since reset holds no value (R42), which is
the spec's own state. The slots `TB` are constants (R43). -/
structure SlotFile where
  ta : Vector (Option PS) 8
  ain : Option PD
  d : Option PD
  acc : Option PD
  e : Option PD
  tmp : Option PI
  rout : Option PX
  deriving DecidableEq, Repr

/-- The digit memories `NA` and `NB` (10_state R28) as one list of (host word address, byte), in the order of rising addresses.
An address that is not listed holds no value (R45; log entry 6). -/
abbrev Memory := List Host.Cell

/-- What the host does next (70_reset R268): the model's plain data for the agent outside the unit (log entry 1). -/
inductive HostAction where
  /-- `HostWrite(addr, v)` (20_memory R64). -/
  | write (addr : HostAddr) (v : Word)
  /-- `HostRead(addr)` (20_memory R63). -/
  | read (addr : HostAddr)
  /-- Write slot `AIN` through the point unit (R266, R268). -/
  | setPoint (p : PD)
  /-- Read slot `ROUT` through the point unit (R268). -/
  | readPoint
  /-- `POLL`: read `STATUS` until `BUSY = 0` (30_encoding R102). -/
  | poll
  /-- Let the unit take one step (the free interleaving of 93 U20). -/
  | tick
  /-- The reset input (70_reset R260). -/
  | reset
  deriving DecidableEq, Repr

/-- What a host read returned (log entry 2). -/
inductive Seen where
  /-- The word a `HostRead` of this address returned. -/
  | word (addr : HostAddr) (v : Word)
  /-- The value the read of `ROUT` returned. -/
  | point (p : PX)
  deriving DecidableEq, Repr

/-- The state of the machine. -/
structure State where
  /-- `SA` (10_state R21). -/
  sa : Scalar
  /-- `SB` (10_state R22). -/
  sb : Scalar
  /-- `STATUS` (R24). -/
  status : Status
  /-- `ITER`, bits 8:0 (R25). -/
  iter : BitVec 9
  /-- `SKIP`, bits 9:0 (R26). -/
  skip : BitVec 10
  /-- `SCORE`, bits 9:0 (R27). -/
  score : BitVec 10
  /-- `NA` and `NB` (R28). -/
  mem : Memory
  /-- The hidden encoder state (R29 to R32). -/
  enc : EncState
  /-- The hidden sequencer state (R33 to R37). -/
  seq : SeqState
  /-- The point slots (R40). -/
  slots : SlotFile
  /-- `UOPS`, the words issued since reset, oldest first (R44). -/
  uops : List Word
  /-- The model's own: a micro-operation word waiting at the point unit (log entry 3). -/
  port : Option Word
  /-- The model's own: the host's actions still to be made, the next one first (log entry 1). -/
  host : List HostAction
  /-- The model's own: what the host has read, oldest first (log entry 2). -/
  seen : List Seen
  /-- The model's own: the number of host reads made, to which the free values are applied (log entry 5). -/
  draws : Nat
  deriving DecidableEq, Repr

/-- Every state slot without a value (R45). -/
def SlotFile.empty : SlotFile where
  ta := Vector.replicate 8 none
  ain := none
  d := none
  acc := none
  e := none
  tmp := none
  rout := none

/-- The machine right after reset (10_state R45). The hidden encoder registers and `tstep`, `li`, `lsub`, `diag` are "unspecified" in
R45: the values here are log entry 7 (DESIGN CHOICE). The last four fields are log entry 8. -/
def State.reset : State where
  sa := 0
  sb := 0
  status := { busy := false, done := false, err := false, errCode := 0, errSel := .a }
  iter := 0
  skip := 0
  score := 0
  mem := []
  enc := { ex := 0, ec := false, ez := 0, epos := 0, ew := 2, esel := .a }
  seq := { q := .idle, tstep := 0, li := 0, lsub := .lDbl, diag := false }
  slots := SlotFile.empty
  uops := []
  port := none
  host := []
  seen := []
  draws := 0

end Sys2Proof.Machine
end

