-- ==== Sys2Proof/WellFormed.lean ====
section
/-! DEFINITION. Which instructions are well formed: a command whose fields are in the contract (30_encoding R92) and a
micro-operation that stands in the table of every word the unit can issue (30_encoding R99). -/

namespace Sys2Proof

/-- The legal window widths of `ENC` (30_encoding R92). -/
def legalWidth (w : BitVec 4) : Bool :=
  decide (Config.wMin ≤ w.toNat) && decide (w.toNat ≤ Config.wMax)

/-- `ADD TMP, D, TA[0..6]` (table build), `ADD TMP, ACC, TA[0..7]` and `ADD TMP, ACC, TB[0..63]` (loop), R99. -/
def addOperands (dst src1 src2 : Slot) : Bool :=
  match dst, src1, src2 with
  | .tmp, .d, .ta j => decide (j.val < 7)
  | .tmp, .acc, .ta _ => true
  | .tmp, .acc, .tb _ => true
  | _, _, _ => false

/-- `SUB TMP, ACC, TA[0..7]` and `SUB TMP, ACC, TB[0..63]`, R99. -/
def subOperands (dst src1 src2 : Slot) : Bool :=
  match dst, src1, src2 with
  | .tmp, .acc, .ta _ => true
  | .tmp, .acc, .tb _ => true
  | _, _, _ => false

/-- `TOSTO TA[0], AIN` and `TOSTO TA[1..7], E`, R99. -/
def tostoOperands (dst src1 src2 : Slot) : Bool :=
  match dst, src1, src2 with
  | .ta j, .ain, .none => decide (j.val = 0)
  | .ta j, .e, .none => decide (0 < j.val)
  | _, _, _ => false

/-- Whether an instruction is a host command (format H); the others are micro-operations (format P), 30_encoding R90. -/
def Instr.isCommand : Instr → Bool
  | .enc _ _ => true
  | .mul => true
  | .muls => true
  | .ident _ _ _ => false
  | .dbl _ _ _ => false
  | .add _ _ _ => false
  | .sub _ _ _ => false
  | .todbl _ _ _ => false
  | .tosto _ _ _ => false
  | .toext _ _ _ => false

/-- Well-formedness: the widths of R92 for `ENC`, the table of R99 for a micro-operation. -/
def Instr.wellFormed : Instr → Bool
  | .enc w _ => legalWidth w
  | .mul => true
  | .muls => true
  | .ident dst src1 src2 => decide (dst = .acc ∧ src1 = .none ∧ src2 = .none)
  | .dbl dst src1 src2 =>
    decide ((dst = .d ∧ src1 = .ain ∨ dst = .acc ∧ src1 = .acc) ∧ src2 = .none)
  | .add dst src1 src2 => addOperands dst src1 src2
  | .sub dst src1 src2 => subOperands dst src1 src2
  | .todbl dst src1 src2 => decide ((dst = .e ∨ dst = .acc) ∧ src1 = .tmp ∧ src2 = .none)
  | .tosto dst src1 src2 => tostoOperands dst src1 src2
  | .toext dst src1 src2 => decide (dst = .rout ∧ src1 = .acc ∧ src2 = .none)

end Sys2Proof
end

