-- ==== Sys2Proof/Machine/Ops.lean ====
section
/-! DEFINITION. The named operations over the digit memories and the registers: reads and writes of memory, the start and
the end of a command, the unit's one way of taking a fault (60_exceptions R236), reset (70_reset R260), and the performing of
a micro-operation (43_point_ops R212). -/

namespace Sys2Proof.Machine

/-! ### Memory -/

/-- Addresses strictly rising. -/
def memRising : Memory → Bool
  | [] => true
  | [_] => true
  | c :: c' :: m => decide (c.1 < c'.1) && memRising (c' :: m)

/-- The canonical form of the digit memories: addresses strictly rising and each one the host address of a digit (20_memory
R61). An address that is not listed holds no value, so no entry can equal what an unlisted address reads as. -/
def Memory.wf (m : Memory) : Bool :=
  memRising m && m.all fun c => decide (0x100 ≤ c.1) && decide (c.1 < 0x300)

/-- The byte at an address, or nothing where nothing has been written since reset (10_state R45). -/
def memRead : Memory → Nat → Option Byte
  | [], _ => none
  | c :: m, a => if a = c.1 then some c.2 else memRead m a

/-- Write one byte, keeping the canonical form. -/
def memWrite : Memory → Nat → Byte → Memory
  | [], a, v => [(a, v)]
  | c :: m, a, v =>
    if a < c.1 then (a, v) :: c :: m
    else if a = c.1 then (a, v) :: m
    else c :: memWrite m a v

/-- The host word address of digit `i` of `N[sel]`: `0x100 + i` for `NA`, `0x200 + i` for `NB` (20_memory R61). -/
def digitAddr (sel : Sel) (i : BitVec 8) : Nat :=
  match sel with
  | .a => 0x100 + i.toNat
  | .b => 0x200 + i.toNat

/-- The 8-bit two's complement pattern `d mod 256` of an integer (00_scope R301, 30_encoding R95). -/
def tc8 (d : Int) : Byte := BitVec.ofInt 8 d

/-- `DigitWrite(sel, i, d)`: `N[sel][i] <- tc8(d)` (00_scope R303). -/
def writeDigit (sel : Sel) (i : BitVec 8) (d : Int) (s : State) : State :=
  { s with mem := memWrite s.mem (digitAddr sel i) (tc8 d) }

/-- The stored byte of digit `i` of `N[sel]`. A digit nothing has written since reset is a free byte (10_state R45, U3; log
entry 6). -/
def digitByte (sel : Sel) (i : BitVec 8) (s : State) : Byte :=
  match memRead s.mem (digitAddr sel i) with
  | some v => v
  | none => Config.unwrittenDigit s.draws (digitAddr sel i)

/-! ### Scalar registers -/

/-- `S[sel]` (00_scope R302). -/
def scalarOf (sel : Sel) (s : State) : Scalar :=
  match sel with
  | .a => s.sa
  | .b => s.sb

/-- Word `k` of a scalar, bits `32k+31` to `32k` (20_memory R65). -/
def scalarWord (v : Scalar) (k : Nat) : Word := v.extractLsb' (32 * k) 32

/-- A scalar with word `k` replaced and its other 224 bits kept (20_memory R64). -/
def putScalarWord (v : Scalar) (k : Nat) (w : Word) : Scalar :=
  (v &&& ~~~((BitVec.allOnes 32).setWidth 256 <<< (32 * k))) ||| (w.setWidth 256 <<< (32 * k))

/-- A host write of word `k` of `S[sel]` (20_memory R64). -/
def writeScalarWord (sel : Sel) (k : Nat) (w : Word) (s : State) : State :=
  match sel with
  | .a => { s with sa := putScalarWord s.sa k w }
  | .b => { s with sb := putScalarWord s.sb k w }

/-! ### Commands -/

/-- Start an encoding of `S[sel]` with width `w` into `N[sel]` (40_naf_encoder R124). -/
def startEncoding (sel : Sel) (w : BitVec 4) (s : State) : State :=
  { s with enc := { ex := scalarOf sel s, ec := false, ez := 0, epos := 0, ew := w, esel := sel } }

/-- A `CMD` write does nothing while `BUSY = 1` or `ERR = 1` (10_state R23, 60_exceptions R238). -/
def commandsIgnored (s : State) : Bool := s.status.busy || s.status.err

/-- The status and control position part of accepting a command: `BUSY <- 1`, `DONE <- 0`, `diag` loaded, the phase entered
(R120, 42_multiplier R173). -/
def beginCommand (q : Phase) (diag : Bool) (s : State) : State :=
  { s with status := { s.status with busy := true, done := false }, seq := { s.seq with q := q, diag := diag } }

/-- The end of a command: `BUSY <- 0`, `DONE <- 1`, `q <- IDLE` (R128, R191). -/
def endCommand (s : State) : State :=
  { s with status := { s.status with busy := false, done := true }, seq := { s.seq with q := .idle } }

/-- `ITER <- 0; SKIP <- 0; SCORE <- 0`, at the acceptance of a `MULS` (R173). -/
def clearCounters (s : State) : State := { s with iter := 0, skip := 0, score := 0 }

/-! ### Faults and reset -/

/-- The fault causes (60_exceptions R231). -/
inductive FaultCause where
  | errOp
  | errRsvd
  | errWin
  | errRange
  deriving DecidableEq, Repr

/-- The code a cause is recorded with (60_exceptions R231). -/
def faultCode : FaultCause → BitVec 4
  | .errOp => 1
  | .errRsvd => 2
  | .errWin => 3
  | .errRange => 4

/-- `raise Fault(code, sel)` (60_exceptions R236): the one way the unit takes a fault. `ERR`, `ERRCODE`, `ERRSEL` are written, `DONE` is
cleared and nothing else changes: nothing is saved, no mode changes and control goes nowhere. There is no return from a
fault but reset (R238). -/
def raiseFault (c : FaultCause) (sel : Sel) (s : State) : State :=
  { s with status := { s.status with err := true, errCode := faultCode c, errSel := sel, done := false } }

/-- Reset (70_reset R260, R261): every piece of the unit's state at its value of 10_state R45, the slots without a value and `UOPS`
empty. The host's own actions and readings, and the count the free values are applied to, are no state of the unit
and stay (log entry 9). -/
def applyReset (s : State) : State :=
  { State.reset with host := s.host, seen := s.seen, draws := s.draws }

/-! ### Micro-operations -/

/-- Whether a micro-operation is one the unit can issue (30_encoding R99); a model refuses every other (R100). -/
def uopLegal (i : Instr) : Bool := i.wellFormed

/-- Perform one micro-operation (43_point_ops R212): `slots` is the slot file with the destination written, or nothing where a
source holds no value (10_state R42). The word is appended to `UOPS` in the same step (00_scope R304). -/
def performUop (i : Instr) (slots : Option SlotFile) (s : State) : Host.Outcome State Fault Refusal :=
  if uopLegal i then
    match slots with
    | some f => .next { s with slots := f, uops := s.uops ++ [encode i] }
    | none => .fault .emptySlot
  else .refused .outsideUopTable

end Sys2Proof.Machine
end

