-- ==== Sys2Proof/Machine/Flags.lean ====
section
/-! DEFINITION. The conditions the unit's rules test and the counters they keep (spec/10_state.md R38: there is no condition-code
register): the `STATUS` word (R24), the sign class of a stored digit, and the diagnostic counters, written only when
`diag = 1` (R37). -/

namespace Sys2Proof.Machine

/-- The word a read of `STATUS` gives (10_state R24): `BUSY` bit 0, `DONE` bit 1, `ERR` bit 2, `ERRCODE` bits 7:4, `ERRSEL` bit 8, every other bit
0. -/
def statusWord (t : Status) : Word :=
  (BitVec.ofBool t.busy).setWidth 32
    ||| ((BitVec.ofBool t.done).setWidth 32 <<< 1)
    ||| ((BitVec.ofBool t.err).setWidth 32 <<< 2)
    ||| (t.errCode.setWidth 32 <<< 4)
    ||| ((BitVec.ofBool (selBit t.errSel)).setWidth 32 <<< 8)

/-- The sign class of a digit (10_state R38 (c)). -/
inductive SignClass where
  | zero
  | neg
  | pos
  deriving DecidableEq, Repr

/-- `d = 0` when the byte is `0x00`, `d < 0` when its bit 7 is 1, `d > 0` otherwise (10_state R38). -/
def signClass (v : Byte) : SignClass :=
  if v = 0 then .zero else if v.msb then .neg else .pos

/-- `if diag = 1 then ITER <- ITER + 1` (42_multiplier R180). -/
def countIter (s : State) : State :=
  { s with iter := if s.seq.diag then s.iter + 1 else s.iter }

/-- `if diag = 1 then SKIP <- SKIP + 1` (42_multiplier R183, R187). -/
def countSkip (s : State) : State :=
  { s with skip := if s.seq.diag then s.skip + 1 else s.skip }

/-- `if diag = 1: SCORE <- 2·ITER − SKIP` (42_multiplier R191). -/
def writeScore (s : State) : State :=
  { s with score := if s.seq.diag then 2 * s.iter.setWidth 10 - s.skip else s.score }

end Sys2Proof.Machine
end

