-- ==== Sys2Proof/Machine/Encoder.lean ====
section
/-! DEFINITION. The NAF encoder (spec/40_naf_encoder.md): the meaning of `ENC` (R120) and the datapath that writes one digit a
step (R124 to R128). -/

namespace Sys2Proof.Machine

/-- The window width is in 2..8 (60_exceptions R233). -/
def widthInRange (w : BitVec 4) : Bool := legalWidth w

/-- `ENC S[sel], w`, at the host's write of the word (R120). Ignored while `BUSY = 1` or `ERR = 1`; then the checks of 60_exceptions
R235 that follow the decoding of the word, the width (R233) and the range of the selected scalar (R234); then the
command is accepted. The 256 encoder steps are steps of the unit. -/
def execEnc (w : BitVec 4) (sel : Sel) (s : State) : Host.Outcome State Fault Refusal :=
  if commandsIgnored s then .next s
  else if !widthInRange w then .next (raiseFault .errWin .a s)
  else if (scalarOf sel s)[255] then .next (raiseFault .errRange sel s)
  else .next (startEncoding sel w (beginCommand .eRun false s))

/-- The window value `win = ec + ex[ew−1:0]`, exact (R126, R130). -/
def windowValue (e : EncState) : Nat := e.ec.toNat + e.ex.toNat % 2 ^ e.ew.toNat

/-- The digit of the current position with the next carry and zero-run count (R126). -/
structure Recoded where
  digit : Int
  carry : Bool
  zeros : BitVec 3
  deriving DecidableEq, Repr

/-- The computation of R126: a forced zero inside the window of the last nonzero digit, else by the parity and the top bit of the
window value. -/
def recode (e : EncState) : Recoded :=
  if e.ez ≠ 0 then { digit := 0, carry := e.ec, zeros := e.ez - 1 }
  else if windowValue e % 2 = 0 then { digit := 0, carry := e.ec, zeros := 0 }
  else if (windowValue e).testBit (e.ew.toNat - 1) then
    { digit := (windowValue e : Int) - 2 ^ e.ew.toNat, carry := true, zeros := BitVec.ofNat 3 (e.ew.toNat - 1) }
  else { digit := windowValue e, carry := false, zeros := BitVec.ofNat 3 (e.ew.toNat - 1) }

/-- The encoder's registers after a position (R127): the residual shifted right by one bit, the carry and the zero run taken over, the
position advanced. -/
def shiftEncoder (e : EncState) : EncState :=
  { e with ex := e.ex >>> 1, ec := (recode e).carry, ez := (recode e).zeros, epos := e.epos + 1 }

/-- The write and shift of R127. `epos` is below 256 in every reachable encoding state (R125); its low eight bits are the index (log
entry 13). -/
def writePosition (s : State) : State :=
  { writeDigit s.enc.esel (s.enc.epos.setWidth 8) (recode s.enc).digit s with enc := shiftEncoder s.enc }

/-- What the step that wrote position 255 also does (R128): `ENC` is complete; `M_ENCA` starts the encoding of `SB` with width 8
(42_multiplier R174); `M_ENCB` goes to the table build (R175). -/
def endEncoding (s : State) : State :=
  match s.seq.q with
  | .eRun => endCommand s
  | .mEncA => startEncoding .b Config.wb { s with seq := { s.seq with q := .mEncB } }
  | .mEncB => { s with seq := { s.seq with q := .mTbl, tstep := 0 } }
  | _ => s

/-- One encoder step (R125 to R128). -/
def encoderStep (s : State) : State :=
  if s.enc.epos = 255 then endEncoding (writePosition s) else writePosition s

end Sys2Proof.Machine
end

