-- ==== Sys2Proof/Machine/Operands.lean ====
section
/-! DEFINITION. The operand forms of the micro-operations: reading and writing a slot of each point form (spec/43_point_ops.md R213),
and the table operand the unit assembles from a digit (30_encoding R101, 41_table_builder R156). -/

namespace Sys2Proof.Machine

/-- The value of a slot of form `PD` (10_state R40); nothing where the slot holds no value. A slot of another form has none. -/
def slotPD (f : SlotFile) : Slot → Option PD
  | .ain => f.ain
  | .d => f.d
  | .acc => f.acc
  | .e => f.e
  | _ => none

/-- The value of a slot of form `PI` (10_state R40). -/
def slotPI (f : SlotFile) : Slot → Option PI
  | .tmp => f.tmp
  | _ => none

/-- The value of a slot of form `PS` (10_state R40): a `TA` slot of the state or a constant of the table of B (R43). -/
def slotPS (f : SlotFile) : Slot → Option PS
  | .ta j => f.ta[j]
  | .tb j => some (Config.tbConst j)
  | _ => none

/-- The value of a slot of form `PX` (10_state R40). -/
def slotPX (f : SlotFile) : Slot → Option PX
  | .rout => f.rout
  | _ => none

/-- Write a slot of form `PD`; a slot of another form takes no such value. -/
def putPD (f : SlotFile) (dst : Slot) (p : PD) : SlotFile :=
  match dst with
  | .ain => { f with ain := some p }
  | .d => { f with d := some p }
  | .acc => { f with acc := some p }
  | .e => { f with e := some p }
  | _ => f

/-- Write a slot of form `PI`. -/
def putPI (f : SlotFile) (dst : Slot) (p : PI) : SlotFile :=
  match dst with
  | .tmp => { f with tmp := some p }
  | _ => f

/-- Write a slot of form `PS`. A `TB` slot is never written (10_state R43). -/
def putPS (f : SlotFile) (dst : Slot) (p : PS) : SlotFile :=
  match dst with
  | .ta j => { f with ta := f.ta.set j.val (some p) j.isLt }
  | _ => f

/-- Write a slot of form `PX`. -/
def putPX (f : SlotFile) (dst : Slot) (p : PX) : SlotFile :=
  match dst with
  | .rout => { f with rout := some p }
  | _ => f

/-- The signed value `int_8(v)` of a stored digit (00_scope R301, 30_encoding R95). -/
def digitValue (v : Byte) : Int := v.toInt

/-- The table index `|d| >> 1` of a digit (30_encoding R101, 41_table_builder R156). -/
def tableIndex (v : Byte) : Nat := (digitValue v).natAbs / 2

/-- The slot a digit selects: number `0x40 + j` for the table of A, `0x00 + j` for the table of B (20_memory R71, 30_encoding R101). The
unit has no bounds check (41_table_builder R157): the number is what the field holds (log entry 13). -/
def tableSlot (sel : Sel) (v : Byte) : Slot :=
  match sel with
  | .a => slotOfNumber (BitVec.ofNat 7 (0x40 + tableIndex v))
  | .b => slotOfNumber (BitVec.ofNat 7 (0x00 + tableIndex v))

end Sys2Proof.Machine
end

