-- ==== Sys2Proof/Machine/Multiplier.lean ====
section
/-! DEFINITION. The double-base multiplier (spec/42_multiplier.md): the meanings of `MUL` and `MULS` (R170, R171, R173) and the
sequencer's rules, phase by phase (R176 to R191), with the table build list of 41_table_builder R153. A rule gives the
micro-operation it issues, if any, and the state with the rest of the rule's writes; performing the micro-operation
is the point unit's part of the same step (R172). -/

namespace Sys2Proof.Machine

/-- Acceptance of `MUL` or `MULS` after its word is decoded (R173): ignored while `BUSY = 1` or `ERR = 1`; then the range checks of
60_exceptions R234, R235, `SA` first; then the encoding of `SA` with width 5 is started. -/
def acceptMultiply (diag : Bool) (s : State) : State :=
  if commandsIgnored s then s
  else if s.sa[255] then raiseFault .errRange .a s
  else if s.sb[255] then raiseFault .errRange .b s
  else startEncoding .a Config.wa (beginCommand .mEncA diag (if diag then clearCounters s else s))

/-- `MUL` (R170). -/
def execMul (s : State) : Host.Outcome State Fault Refusal := .next (acceptMultiply false s)

/-- `MULS` (R171): `MUL` with `diag = 1` and the counters cleared. -/
def execMuls (s : State) : Host.Outcome State Fault Refusal := .next (acceptMultiply true s)

/-! ### The table build -/

/-- Entry `j` of the table of A as an operand. -/
def taSlot (j : Nat) : Slot := .ta (Fin.ofNat 8 j)

/-- The micro-operation numbered `n` of the table build, in closed form (41_table_builder R153): step 0 is `DBL D, AIN`, step 1 is `TOSTO
TA[0], AIN`, and for j = 1..7 step `3j − 1` is `ADD TMP, D, TA[j−1]`, step `3j` is `TODBL E, TMP`, step `3j + 1` is `TOSTO TA[j], E`. -/
def tableUop (n : Nat) : Instr :=
  if n = 0 then .dbl .d .ain .none
  else if n = 1 then .tosto (taSlot 0) .ain .none
  else if n % 3 = 2 then .add .tmp .d (taSlot ((n + 1) / 3 - 1))
  else if n % 3 = 0 then .todbl .e .tmp .none
  else .tosto (taSlot ((n - 1) / 3)) .e .none

/-- Phase `M_TBL` (R176). -/
def tableRule (s : State) : Option Instr × State :=
  (some (tableUop s.seq.tstep.toNat),
    if s.seq.tstep = 22 then { s with seq := { s.seq with q := .mScan } }
    else { s with seq := { s.seq with tstep := s.seq.tstep + 1 } })

/-! ### The scan -/

/-- The highest `i < n` with `p i`, or 0 if there is none (R177). -/
def highest (p : Nat → Bool) : Nat → Nat
  | 0 => 0
  | n + 1 => if p n then n else highest p n

/-- Whether position `i` has a nonzero digit (R177). -/
def positionUsed (s : State) (i : Nat) : Bool :=
  decide (digitByte .a (BitVec.ofNat 8 i) s ≠ 0) || decide (digitByte .b (BitVec.ofNat 8 i) s ≠ 0)

/-- `start(NA, NB)` (R177). -/
def startIndex (s : State) : Nat := highest (positionUsed s) Config.nDigits

/-- Phase `M_SCAN` (R177). -/
def scanRule (s : State) : Option Instr × State :=
  (none, { s with seq := { s.seq with li := BitVec.ofNat 8 (startIndex s), q := .mInit } })

/-- Phase `M_INIT` (R178). -/
def initRule (s : State) : Option Instr × State :=
  (some (.ident .acc .none .none), { s with seq := { s.seq with lsub := .lDbl, q := .mLoop } })

/-! ### The loop -/

/-- Move to a sub-step of the iteration. -/
def gotoSub (l : LoopSub) (s : State) : State := { s with seq := { s.seq with lsub := l } }

/-- `L_DBL` (R180). -/
def doubleRule (s : State) : Option Instr × State :=
  (some (.dbl .acc .acc .none), gotoSub .lA (countIter s))

/-- `L_A` and `L_B` (R181 to R183, R186, R187): the digit at `li` selects add, subtract or skip; after a combine the sub-step `conv`
follows, after a skip the sub-step `next`. -/
def combineRule (sel : Sel) (conv next : LoopSub) (s : State) : Option Instr × State :=
  match signClass (digitByte sel s.seq.li s) with
  | .pos => (some (.add .tmp .acc (tableSlot sel (digitByte sel s.seq.li s))), gotoSub conv s)
  | .neg => (some (.sub .tmp .acc (tableSlot sel (digitByte sel s.seq.li s))), gotoSub conv s)
  | .zero => (none, gotoSub next (countSkip s))

/-- `L_ACV` and `L_BCV` (R184, R188). -/
def convertRule (next : LoopSub) (s : State) : Option Instr × State :=
  (some (.todbl .acc .tmp .none), gotoSub next s)

/-- `L_NEXT` (R189, R190). -/
def nextRule (s : State) : Option Instr × State :=
  (none,
    if s.seq.li = 0 then { s with seq := { s.seq with q := .mOut } }
    else { s with seq := { s.seq with li := s.seq.li - 1, lsub := .lDbl } })

/-- Phase `M_LOOP` (R179). -/
def loopRule (s : State) : Option Instr × State :=
  match s.seq.lsub with
  | .lDbl => doubleRule s
  | .lA => combineRule .a .lAcv .lB s
  | .lAcv => convertRule .lB s
  | .lB => combineRule .b .lBcv .lNext s
  | .lBcv => convertRule .lNext s
  | .lNext => nextRule s

/-- Phase `M_OUT` (R191). -/
def outRule (s : State) : Option Instr × State :=
  (some (.toext .rout .acc .none), endCommand (writeScore s))

end Sys2Proof.Machine
end

