-- ==== Sys2Proof/Machine/PointOps.lean ====
section
/-! DEFINITION. The seven micro-operations (spec/43_point_ops.md R214 to R220). Each appends its word to `UOPS` and writes its
destination slot with a function of the point unit, the sources read first (R212). -/

namespace Sys2Proof.Machine

/-- `IDENT dst`: `slot[dst] <- identity` (R214). It reads no slot. -/
def execIdent (dst src1 src2 : Slot) (s : State) : Host.Outcome State Fault Refusal :=
  performUop (.ident dst src1 src2) (some (putPD s.slots dst Config.identity)) s

/-- `DBL dst, src1`: `slot[dst] <- double(slot[src1])` (R215). -/
def execDbl (dst src1 src2 : Slot) (s : State) : Host.Outcome State Fault Refusal :=
  performUop (.dbl dst src1 src2)
    ((slotPD s.slots src1).map fun p => putPD s.slots dst (Config.double p)) s

/-- `ADD dst, src1, src2`: `slot[dst] <- cadd(slot[src1], slot[src2])` (R216). -/
def execAdd (dst src1 src2 : Slot) (s : State) : Host.Outcome State Fault Refusal :=
  performUop (.add dst src1 src2)
    ((slotPD s.slots src1).bind fun p => (slotPS s.slots src2).map fun t => putPI s.slots dst (Config.cadd p t)) s

/-- `SUB dst, src1, src2`: `slot[dst] <- csub(slot[src1], slot[src2])` (R217). -/
def execSub (dst src1 src2 : Slot) (s : State) : Host.Outcome State Fault Refusal :=
  performUop (.sub dst src1 src2)
    ((slotPD s.slots src1).bind fun p => (slotPS s.slots src2).map fun t => putPI s.slots dst (Config.csub p t)) s

/-- `TODBL dst, src1`: `slot[dst] <- toDbl(slot[src1])` (R218). -/
def execTodbl (dst src1 src2 : Slot) (s : State) : Host.Outcome State Fault Refusal :=
  performUop (.todbl dst src1 src2)
    ((slotPI s.slots src1).map fun p => putPD s.slots dst (Config.toDbl p)) s

/-- `TOSTO dst, src1`: `slot[dst] <- toSto(slot[src1])` (R219). -/
def execTosto (dst src1 src2 : Slot) (s : State) : Host.Outcome State Fault Refusal :=
  performUop (.tosto dst src1 src2)
    ((slotPD s.slots src1).map fun p => putPS s.slots dst (Config.toSto p)) s

/-- `TOEXT dst, src1`: `slot[dst] <- toExt(slot[src1])` (R220). -/
def execToext (dst src1 src2 : Slot) (s : State) : Host.Outcome State Fault Refusal :=
  performUop (.toext dst src1 src2)
    ((slotPD s.slots src1).map fun p => putPX s.slots dst (Config.toExt p)) s

end Sys2Proof.Machine
end

