-- ==== Sys2Proof/Machine/Dispatch.lean ====
section
/-! DEFINITION. One arm for each instruction of spec/opcode_table.json, each a call of its meaning. -/

namespace Sys2Proof.Machine

def exec (i : Instr) (s : State) : Host.Outcome State Fault Refusal :=
  match i with
  | .enc w sel => Sys2Proof.Machine.execEnc w sel s
  | .mul => Sys2Proof.Machine.execMul s
  | .muls => Sys2Proof.Machine.execMuls s
  | .ident dst src1 src2 => Sys2Proof.Machine.execIdent dst src1 src2 s
  | .dbl dst src1 src2 => Sys2Proof.Machine.execDbl dst src1 src2 s
  | .add dst src1 src2 => Sys2Proof.Machine.execAdd dst src1 src2 s
  | .sub dst src1 src2 => Sys2Proof.Machine.execSub dst src1 src2 s
  | .todbl dst src1 src2 => Sys2Proof.Machine.execTodbl dst src1 src2 s
  | .tosto dst src1 src2 => Sys2Proof.Machine.execTosto dst src1 src2 s
  | .toext dst src1 src2 => Sys2Proof.Machine.execToext dst src1 src2 s

end Sys2Proof.Machine
end

