-- ==== Sys2Proof/Machine/HostBus.lean ====
section
/-! DEFINITION. The host's side that needs no instruction: the register map (spec/20_memory.md R61), `HostRead` (R63), and the host's
access to the slots `AIN` and `ROUT` through the point unit (70_reset R266, R268). -/

namespace Sys2Proof.Machine

/-- Sign extension of a stored digit to a host word: `{24 copies of v[7], v}` (20_memory R66). -/
def digitWord (v : Byte) : Word := v.signExtend 32

/-- What `HostRead(addr)` returns while `BUSY = 0` (20_memory R63); an unmapped address reads 0 (R62), and so does `CMD` (10_state R23). -/
def idleReadWord (addr : HostAddr) (s : State) : Word :=
  let a := addr.toNat
  if a = 0x001 then statusWord s.status
  else if a = 0x002 then s.iter.setWidth 32
  else if a = 0x003 then s.skip.setWidth 32
  else if a = 0x004 then s.score.setWidth 32
  else if 0x010 ≤ a ∧ a ≤ 0x017 then scalarWord s.sa (a - 0x010)
  else if 0x018 ≤ a ∧ a ≤ 0x01F then scalarWord s.sb (a - 0x018)
  else if 0x100 ≤ a ∧ a ≤ 0x1FF then digitWord (digitByte .a (BitVec.ofNat 8 (a - 0x100)) s)
  else if 0x200 ≤ a ∧ a ≤ 0x2FF then digitWord (digitByte .b (BitVec.ofNat 8 (a - 0x200)) s)
  else 0

/-- What `HostRead(addr)` returns: while `BUSY = 1` every read but that of `STATUS` is a free word (20_memory R63, R73, U1; log entry 5). -/
def hostReadWord (addr : HostAddr) (s : State) : Word :=
  if s.status.busy ∧ addr ≠ 0x001 then Config.busyRead s.draws else idleReadWord addr s

/-- A host read: it changes no state of the unit (R63); the model records what was returned (log entry 2) and counts the read, so that
the next free value is another one (log entry 5). -/
def hostRead (addr : HostAddr) (s : State) : State :=
  { s with seen := s.seen ++ [.word addr (hostReadWord addr s)], draws := s.draws + 1 }

/-- The host writes slot `AIN` through the point unit (70_reset R266 (4), R268). While `BUSY = 1` a model gives the host no such move (R271,
U18; log entry 12). -/
def hostSetPoint (p : PD) (s : State) : Host.Outcome State Fault Refusal :=
  if s.status.busy then .refused .pointSlotWhileBusy
  else .next { s with slots := { s.slots with ain := some p } }

/-- The host reads slot `ROUT` through the point unit (70_reset R268). A slot that holds no value is a fault of the model (10_state R45). -/
def hostReadPoint (s : State) : Host.Outcome State Fault Refusal :=
  if s.status.busy then .refused .pointSlotWhileBusy
  else
    match s.slots.rout with
    | some p => .next { s with seen := s.seen ++ [.point p] }
    | none => .fault .emptySlot

end Sys2Proof.Machine
end

