-- ==== Sys2Proof/Machine/Unit.lean ====
section
/-! DEFINITION. The unit's step relation (spec/42_multiplier.md R172, R193), the point unit's reading of a word, the `CMD` register
and `HostWrite` (20_memory R64), and one move of the host. -/

namespace Sys2Proof.Machine

/-- A word at the point unit is decoded and performed (43_point_ops R212). A word of no micro-operation is refused (30_encoding
R100). -/
def pointUnit (w : Word) (s : State) : Host.Outcome State Fault Refusal :=
  match decodeUop w with
  | .ok i => exec i s
  | .error _ => .refused .outsideUopTable

/-- The rest of a sequencer step: the word of the issued micro-operation, if any, is performed in the same step (R172, R212). -/
def issueRule : Option Instr × State → Host.Outcome State Fault Refusal
  | (some i, t) => pointUnit (encode i) t
  | (none, t) => .next t

/-- One step of the unit (R172, R193). It has a step exactly when `BUSY = 1`; an idle unit keeps all its state (60_exceptions R251). -/
def unitStep (s : State) : Host.Outcome State Fault Refusal :=
  if s.status.busy then
    match s.seq.q with
    | .idle => .next s
    | .eRun => .next (encoderStep s)
    | .mEncA => .next (encoderStep s)
    | .mEncB => .next (encoderStep s)
    | .mTbl => issueRule (tableRule s)
    | .mScan => issueRule (scanRule s)
    | .mInit => issueRule (initRule s)
    | .mLoop => issueRule (loopRule s)
    | .mOut => issueRule (outRule s)
  else .next s

/-- `n` steps of the unit, stopping at the first fault or refusal. -/
def unitRun : Nat → State → Host.Outcome State Fault Refusal
  | 0, s => .next s
  | n + 1, s =>
    match unitStep s with
    | .next t => unitRun n t
    | .fault r => .fault r
    | .refused r => .refused r

/-- The fault cause of a word that is no command (30_encoding R94). -/
def cmdErrorCause : CmdError → FaultCause
  | .illegalOp => .errOp
  | .reservedBits => .errRsvd

/-- A write to `CMD` (10_state R23): ignored while `BUSY = 1` or `ERR = 1` (60_exceptions R238); else the word is decoded and either starts
the command or faults, in the order of R235. -/
def writeCmd (v : Word) (s : State) : Host.Outcome State Fault Refusal :=
  if commandsIgnored s then .next s
  else
    match decodeCmd v with
    | .ok i => exec i s
    | .error e => .next (raiseFault (cmdErrorCause e) .a s)

/-- `HostWrite(addr, v)` (20_memory R64). While `BUSY = 1` every write has no effect (R73); an address that is neither `CMD` nor a scalar word
ignores writes (R62). -/
def hostWrite (addr : HostAddr) (v : Word) (s : State) : Host.Outcome State Fault Refusal :=
  let a := addr.toNat
  if s.status.busy then .next s
  else if a = 0x000 then writeCmd v s
  else if 0x010 ≤ a ∧ a ≤ 0x017 then .next (writeScalarWord .a (a - 0x010) v s)
  else if 0x018 ≤ a ∧ a ≤ 0x01F then .next (writeScalarWord .b (a - 0x018) v s)
  else .next s

/-- `POLL` (30_encoding R102): while `BUSY = 1` the unit takes a step and the host keeps waiting; the read of `STATUS` that finds `BUSY = 0` is
recorded (log entry 15). -/
def hostPoll (s : State) : Host.Outcome State Fault Refusal :=
  if s.status.busy then unitStep { s with host := .poll :: s.host } else .next (hostRead 0x001 s)

/-- One move of the host, already taken from its queue (70_reset R268; log entry 1). -/
def hostMove (a : HostAction) (s : State) : Host.Outcome State Fault Refusal :=
  match a with
  | .write addr v => hostWrite addr v s
  | .read addr => .next (hostRead addr s)
  | .setPoint p => hostSetPoint p s
  | .readPoint => hostReadPoint s
  | .poll => hostPoll s
  | .tick => unitStep s
  | .reset => .next (applyReset s)

/-- One step of the machine: a word waiting at the point unit is performed; else the host makes its next move; else, with no host action
pending, the unit takes its step if it is busy (70_reset R274). -/
def machineStep (s : State) : Host.Outcome State Fault Refusal :=
  match s.port with
  | some w => pointUnit w { s with port := none }
  | none =>
    match s.host with
    | a :: rest => hostMove a { s with host := rest }
    | [] => unitStep s

/-- An instruction word put where `machineStep` takes its next instruction from: a command is the host's next write to `CMD`, a
micro-operation waits at the point unit (log entry 3). -/
def placeWord (w : Word) (s : State) : State :=
  if isFormatH w then { s with port := none, host := .write 0x000 w :: s.host }
  else { s with port := some w }

end Sys2Proof.Machine
end

