-- ==== Sys2Proof/Machine/Step.lean ====
section
/-! DEFINITION. The step of the machine, and where an instruction word stands for it to run. -/

namespace Sys2Proof.Machine

/-- One step: one host move or one step of the unit (spec/00_scope.md R11). -/
def step (s : State) : Host.Outcome State Fault Refusal := machineStep s

/-- The state with the instruction of bits `w` placed so that the very next step runs it (log entry 3). -/
def State.withFetchWord (s : State) (nbits w : Nat) : State :=
  placeWord (BitVec.ofNat 32 (w % 2 ^ nbits)) s

end Sys2Proof.Machine
end

