-- ==== Sys2Proof/Laws/Decode.lean ====
section
/-! SUPPORT. The fields of an assembled micro-operation word and the numbering of the slots. -/

namespace Sys2Proof

/-- The slot numbering loses nothing (30_encoding R96). -/
@[simp] theorem slotOfNumber_slotNumber (x : Slot) : slotOfNumber (slotNumber x) = x := by
  cases x with
  | tb j => revert j; decide
  | ta j => revert j; decide
  | unassigned k => revert k; decide
  | _ => rfl

/-- Every number is the number of the slot it names (30_encoding R96). -/
@[simp] theorem slotNumber_slotOfNumber (n : SlotNum) : slotNumber (slotOfNumber n) = n := by
  revert n
  decide

/-- The assembled word of four fields, before naming the slots (30_encoding R97). -/
theorem fields_uopWord (pop : BitVec 4) (dst src1 src2 : Slot) :
    (uopWord pop dst src1 src2).extractLsb' 28 4 = pop ∧
    (uopWord pop dst src1 src2).extractLsb' 21 7 = 0 ∧
    (uopWord pop dst src1 src2).extractLsb' 14 7 = slotNumber dst ∧
    (uopWord pop dst src1 src2).extractLsb' 7 7 = slotNumber src1 ∧
    (uopWord pop dst src1 src2).extractLsb' 0 7 = slotNumber src2 := by
  unfold uopWord
  generalize slotNumber dst = a, slotNumber src1 = b, slotNumber src2 = c
  refine ⟨?_, ?_, ?_, ?_, ?_⟩ <;>
  · ext i hi
    simp only [BitVec.getElem_extractLsb', BitVec.getLsbD_or, BitVec.getLsbD_shiftLeft, BitVec.getLsbD_setWidth]
    interval_cases i <;> simp [← BitVec.getLsbD_eq_getElem]

/-- A micro-operation word decodes to the point operation of its code on its slots. -/
theorem decodeUop_uopWord (pop : BitVec 4) (dst src1 src2 : Slot) :
    decodeUop (uopWord pop dst src1 src2) = uopOfCode pop dst src1 src2 := by
  obtain ⟨h1, h2, h3, h4, h5⟩ := fields_uopWord pop dst src1 src2
  simp [decodeUop, h1, h2, h3, h4, h5]

end Sys2Proof
end

