-- ==== Sys2Proof/Laws/PerInstr.lean ====
section
/-! SUPPORT. One lemma for each instruction about its encoding: the word of an instruction matches the row of
spec/opcode_table.json that the instruction stands for. -/

namespace Sys2Proof

/-- The `match` and `mask` columns of spec/opcode_table.json for the row of an instruction. -/
def tableRow : Instr → Word × Word
  | .enc _ _ => (0x00000001, 0xFFFFFE0F)
  | .mul => (0x00000002, 0xFFFFFFFF)
  | .muls => (0x00000003, 0xFFFFFFFF)
  | .ident _ _ _ => (0x10000000, 0xF0000000)
  | .dbl _ _ _ => (0x20000000, 0xF0000000)
  | .add _ _ _ => (0x30000000, 0xF0000000)
  | .sub _ _ _ => (0x40000000, 0xF0000000)
  | .todbl _ _ _ => (0x50000000, 0xF0000000)
  | .tosto _ _ _ => (0x60000000, 0xF0000000)
  | .toext _ _ _ => (0x70000000, 0xF0000000)

/-- A word of format P under the mask of its row. -/
theorem uopWord_and_mask (pop : BitVec 4) (dst src1 src2 : Slot) :
    uopWord pop dst src1 src2 &&& 0xF0000000 = pop.setWidth 32 <<< 28 := by
  unfold uopWord
  generalize slotNumber dst = a, slotNumber src1 = b, slotNumber src2 = c
  ext i hi
  simp only [BitVec.getElem_and, BitVec.getElem_or, BitVec.getElem_shiftLeft, BitVec.getElem_setWidth]
  interval_cases i <;> simp

namespace Laws.OpcodeRow

/-- The word of the instruction matches its row of the opcode table. -/
def Statement (i : Instr) : Prop := encode i &&& (tableRow i).2 = (tableRow i).1

theorem enc (w : BitVec 4) (sel : Sel) : Statement (.enc w sel) := by
  unfold Statement
  cases sel <;> (revert w; decide)

theorem mul : Statement .mul := by
  unfold Statement
  decide

theorem muls : Statement .muls := by
  unfold Statement
  decide

theorem ident (dst src1 src2 : Slot) : Statement (.ident dst src1 src2) := uopWord_and_mask 1 _ _ _

theorem dbl (dst src1 src2 : Slot) : Statement (.dbl dst src1 src2) := uopWord_and_mask 2 _ _ _

theorem add (dst src1 src2 : Slot) : Statement (.add dst src1 src2) := uopWord_and_mask 3 _ _ _

theorem sub (dst src1 src2 : Slot) : Statement (.sub dst src1 src2) := uopWord_and_mask 4 _ _ _

theorem todbl (dst src1 src2 : Slot) : Statement (.todbl dst src1 src2) := uopWord_and_mask 5 _ _ _

theorem tosto (dst src1 src2 : Slot) : Statement (.tosto dst src1 src2) := uopWord_and_mask 6 _ _ _

theorem toext (dst src1 src2 : Slot) : Statement (.toext dst src1 src2) := uopWord_and_mask 7 _ _ _

end Laws.OpcodeRow

end Sys2Proof
end

