-- ==== Sys2Proof/Machine/Programs.lean ====
section
/-! DEFINITION. The pseudo-commands of spec/30_encoding.md R103: fixed sequences of host actions, named after the document's entry
points. -/

namespace Sys2Proof.Machine

/-- The host address of word `k` of `S[sel]`: `0x010 + k` or `0x018 + k` (20_memory R61). -/
def scalarAddr (sel : Sel) (k : Nat) : HostAddr :=
  match sel with
  | .a => BitVec.ofNat 10 (0x010 + k)
  | .b => BitVec.ofNat 10 (0x018 + k)

/-- `WR 0x010+k, s[32k+31:32k]` for k = 0..7 (R103). -/
def writeScalarActions (sel : Sel) (v : Scalar) : List HostAction :=
  (List.range 8).map fun k => .write (scalarAddr sel k) (scalarWord v k)

/-- `RD` of the 256 digits of `N[sel]` (R103). -/
def readDigitActions (sel : Sel) : List HostAction :=
  (List.range 256).map fun i => .read (BitVec.ofNat 10 (digitAddr sel (BitVec.ofNat 8 i)))

/-- `encode(s, w)` into `N[sel]` (R103). -/
def encodeActions (sel : Sel) (v : Scalar) (w : BitVec 4) : List HostAction :=
  writeScalarActions sel v ++ [.write 0x000 (encode (.enc w sel)), .poll] ++ readDigitActions sel

/-- The writes of the operands of a multiplication: slot `AIN`, `SA`, `SB` (R103). -/
def operandActions (a : Scalar) (p : PD) (b : Scalar) : List HostAction :=
  .setPoint p :: (writeScalarActions .a a ++ writeScalarActions .b b)

/-- `multiply(a, A, b)` (R103). -/
def multiplyActions (a : Scalar) (p : PD) (b : Scalar) : List HostAction :=
  operandActions a p b ++ [.write 0x000 (encode .mul), .poll, .readPoint]

/-- `multiply_scored(a, A, b)` (R103). -/
def multiplyScoredActions (a : Scalar) (p : PD) (b : Scalar) : List HostAction :=
  operandActions a p b
    ++ [.write 0x000 (encode .muls), .poll, .readPoint, .read 0x002, .read 0x003, .read 0x004]

end Sys2Proof.Machine
end

