-- ==== Sys2Proof/Machine/Reference.lean ====
section
/-! DEFINITION. The functions the spec defines a command's result by: the digit sequence `naf(s, w)` (spec/40_naf_encoder.md R122), the
micro-operations of one multiplication in closed form (42_multiplier R200), the counters (R196 to R198) and the number of
steps (70_reset R276). The machine does not call them; statements compare it with them. -/

namespace Sys2Proof.Machine

/-- The digit at a residual `k` for width `w` (R122): 0 for an even `k`; else `t = k mod 2^w`, less `2^w` where `t > 2^(w−1) − 1`. -/
def nafDigit (w k : Nat) : Int :=
  if k % 2 = 1 then
    if 2 ^ (w - 1) - 1 < k % 2 ^ w then ((k % 2 ^ w : Nat) : Int) - 2 ^ w else ((k % 2 ^ w : Nat) : Int)
  else 0

/-- The residual `k_i` (R122): `k_0 = s`, `k_(i+1) = (k_i − d[i]) / 2`. -/
def nafResidual (s w : Nat) : Nat → Nat
  | 0 => s
  | i + 1 => (((nafResidual s w i : Int) - nafDigit w (nafResidual s w i)) / 2).toNat

/-- `naf(s, w)[i]` (R122). -/
def naf (s w i : Nat) : Int := nafDigit w (nafResidual s w i)

/-- The starting index of two digit sequences (R177). -/
def refStart (na nb : Nat → Int) : Nat :=
  highest (fun i => decide (na i ≠ 0) || decide (nb i ≠ 0)) Config.nDigits

/-- The table operand `T[j]` of R200. -/
def refTable (sel : Sel) (j : Nat) : Slot :=
  match sel with
  | .a => .ta (Fin.ofNat 8 j)
  | .b => .tb (Fin.ofNat 64 j)

/-- `CMB(d, T)` of R200. -/
def refCombine (sel : Sel) (d : Int) : List Instr :=
  if d = 0 then []
  else if 0 < d then [.add .tmp .acc (refTable sel (d.natAbs / 2)), .todbl .acc .tmp .none]
  else [.sub .tmp .acc (refTable sel (d.natAbs / 2)), .todbl .acc .tmp .none]

/-- `ITER(i)` of R200: one iteration of the loop. -/
def refIteration (na nb : Nat → Int) (i : Nat) : List Instr :=
  .dbl .acc .acc .none :: (refCombine .a (na i) ++ refCombine .b (nb i))

/-- `ITER(i) ++ ITER(i−1) ++ ... ++ ITER(0)` of R200. -/
def refLoop (na nb : Nat → Int) : Nat → List Instr
  | 0 => refIteration na nb 0
  | i + 1 => refIteration na nb (i + 1) ++ refLoop na nb i

/-- `TBL` of R200: the 23 micro-operations of the table build (41_table_builder R153). -/
def refTableBuild : List Instr := (List.range 23).map tableUop

/-- `uops(a, b)` of R200 as instructions. -/
def refUops (a b : Nat) : List Instr :=
  refTableBuild ++ [.ident .acc .none .none]
    ++ refLoop (naf a 5) (naf b 8) (refStart (naf a 5) (naf b 8)) ++ [.toext .rout .acc .none]

/-- The number of nonzero digits of a sequence at positions below `n`. -/
def nonzeroCount (d : Nat → Int) : Nat → Nat
  | 0 => 0
  | n + 1 => nonzeroCount d n + if d n = 0 then 0 else 1

/-- `c`, the number of nonzero digits of both sequences together (R200, R276). -/
def refCombines (a b : Nat) : Nat :=
  nonzeroCount (naf a 5) Config.nDigits + nonzeroCount (naf b 8) Config.nDigits

/-- `s` of R200 and R276. -/
def refFirst (a b : Nat) : Nat := refStart (naf a 5) (naf b 8)

/-- The unit steps of `MUL` and `MULS` after acceptance: `542 + 4·s + c` (70_reset R276). -/
def refSteps (a b : Nat) : Nat := 542 + 4 * refFirst a b + refCombines a b

end Sys2Proof.Machine
end

