-- ==== Sys2Proof/Safety.lean ====
section
/-! DEFINITION. What statements are made in terms of: the contract of the point unit (spec/43_point_ops.md R211) and of the table
of B (41_table_builder R158), the invariants of the machine, and a run that neither faults nor is refused. -/

namespace Sys2Proof.Machine

/-- The group contract (43_point_ops R211): a map `den` from each of the four forms to the group with the seven laws. A premise of
statements about results, never of the machine. -/
structure PointContract (G : Type) [AddCommGroup G] where
  denPD : PD → G
  denPI : PI → G
  denPS : PS → G
  denPX : PX → G
  den_identity : denPD Config.identity = 0
  den_double : ∀ p, denPD (Config.double p) = denPD p + denPD p
  den_cadd : ∀ p t, denPI (Config.cadd p t) = denPD p + denPS t
  den_csub : ∀ p t, denPI (Config.csub p t) = denPD p - denPS t
  den_toDbl : ∀ t, denPD (Config.toDbl t) = denPI t
  den_toSto : ∀ p, denPS (Config.toSto p) = denPD p
  den_toExt : ∀ p, denPX (Config.toExt p) = denPD p

/-- The premise on the table of B (41_table_builder R158): `den(TB[j]) = (2j + 1)·B`. -/
def TableOfB {G : Type} [AddCommGroup G] (c : PointContract G) (gen : G) : Prop :=
  ∀ j : Fin 64, c.denPS (Config.tbConst j) = (2 * j.val + 1) • gen

/-- `BUSY = 1` exactly when `q ≠ IDLE` (10_state R33, 42_multiplier R172), `BUSY` with neither `DONE` nor `ERR` (10_state R24), and no code recorded
while `ERR = 0` (R24). -/
def StatusInv (s : State) : Prop :=
  (s.status.busy = true ↔ s.seq.q ≠ .idle) ∧
  ¬ (s.status.busy = true ∧ s.status.done = true) ∧
  ¬ (s.status.busy = true ∧ s.status.err = true) ∧
  ¬ (s.status.done = true ∧ s.status.err = true) ∧
  (s.status.err = false → s.status.errCode = 0 ∧ s.status.errSel = .a)

/-- The next `CMD` write is a command: `BUSY = 0` and `ERR = 0` (10_state R23). -/
def AcceptsCommand (s : State) : Prop := s.status.busy = false ∧ s.status.err = false

/-- The unit runs and is in phase `q` (42_multiplier R172). -/
def AtPhase (s : State) (q : Phase) : Prop := s.status.busy = true ∧ s.seq.q = q

/-- The unit is in the loop at sub-step `l` (42_multiplier R179). -/
def AtSub (s : State) (l : LoopSub) : Prop := AtPhase s .mLoop ∧ s.seq.lsub = l

/-- The state a raised fault leaves (60_exceptions R236): `ERR`, `ERRCODE` and `ERRSEL` written, `DONE` cleared, nothing else changed. -/
def faultRecorded (code : BitVec 4) (sel : Sel) (s : State) : State :=
  { s with status := { s.status with err := true, errCode := code, errSel := sel, done := false } }

/-- The words the unit can issue (30_encoding R99). -/
abbrev R99Word (w : Word) : Prop :=
  w = 0x2012647F ∨ w = 0x6010247F ∨ (∃ j < 7, w = 0x301324C0 + BitVec.ofNat 32 j) ∨ w = 0x5012E67F ∨
  (∃ j < 8, 1 ≤ j ∧ w = 0x601025FF#32 + (BitVec.ofNat 32 j <<< 14)) ∨ w = 0x1012BFFF ∨ w = 0x2012A57F ∨
  (∃ j < 8, w = 0x30132540 + BitVec.ofNat 32 j) ∨ (∃ j < 8, w = 0x40132540 + BitVec.ofNat 32 j) ∨
  (∃ j < 64, w = 0x30132500 + BitVec.ofNat 32 j) ∨ (∃ j < 64, w = 0x40132500 + BitVec.ofNat 32 j) ∨
  w = 0x5012A67F ∨ w = 0x7013657F

/-- Two states that differ at most in `diag` and the three diagnostic counters (42_multiplier R199). -/
def SameButDiag (s t : State) : Prop :=
  t = { s with
    iter := t.iter, skip := t.skip, score := t.score, seq := { s.seq with diag := t.seq.diag } }

/-- Two outcomes of the same kind: related next states, or the same fault or refusal. -/
def OutcomesRelated (r : State → State → Prop) :
    Host.Outcome State Fault Refusal → Host.Outcome State Fault Refusal → Prop
  | .next s, .next t => r s t
  | .fault x, .fault y => x = y
  | .refused x, .refused y => x = y
  | _, _ => False

/-- The number of zero digits of a sequence at positions below `n` (42_multiplier R197). -/
def zeroCount (d : Nat → Int) : Nat → Nat
  | 0 => 0
  | n + 1 => zeroCount d n + if d n = 0 then 1 else 0

/-- `N[sel]` holds the digit sequence `d`, each digit as its 8-bit pattern (10_state R28, 30_encoding R95). -/
def HoldsDigits (sel : Sel) (d : Nat → Int) (s : State) : Prop :=
  ∀ i : BitVec 8, memRead s.mem (digitAddr sel i) = some (tc8 (d i.toNat))

/-- The encoder is running: `q` is `E_RUN`, `M_ENCA` or `M_ENCB` (40_naf_encoder R125). -/
def Encoding (s : State) : Prop := s.seq.q = .eRun ∨ s.seq.q = .mEncA ∨ s.seq.q = .mEncB

/-- While an encoding runs, the position is below 256 (40_naf_encoder R125), the width is legal and the zero run shorter than it (10_state
R31, R32), and in a multiplication the encoding is the hard-wired one (42_multiplier R173, R174). -/
def EncInv (s : State) : Prop :=
  Encoding s →
    s.enc.epos.toNat < 256 ∧ legalWidth s.enc.ew = true ∧ s.enc.ez.toNat < s.enc.ew.toNat ∧
    (s.seq.q = .mEncA → s.enc.esel = .a ∧ s.enc.ew = Config.wa) ∧
    (s.seq.q = .mEncB → s.enc.esel = .b ∧ s.enc.ew = Config.wb)

/-- In the table build `tstep` is 0 to 22 (10_state R34). -/
def TableInv (s : State) : Prop := s.seq.q = .mTbl → s.seq.tstep.toNat ≤ 22

/-- A byte that a digit can be stored as: 0 or an odd pattern (30_encoding R95); `0x80` is neither. -/
def digitPattern (v : Byte) : Bool := decide (v = 0) || v[0]

/-- Every stored digit is 0 or odd (30_encoding R95). -/
def DigitsInv (s : State) : Prop := ∀ c ∈ s.mem, digitPattern c.2 = true

/-- The invariant of the machine. -/
structure MachineInv (s : State) : Prop where
  status : StatusInv s
  enc : EncInv s
  table : TableInv s
  mem : Memory.wf s.mem = true
  digits : DigitsInv s

/-- A run of `n` steps that neither faults nor is refused. -/
def RunsTo (n : Nat) (s t : State) : Prop := Host.Core.run Sys2Proof.core n s = .next t

end Sys2Proof.Machine
end

