-- ==== Sys2Proof/Certificates/Slice0/Obligations.lean ====
section
/-! DEFINITION. The statements about the machine, from the rules of spec/. None is about a program. -/

open Sys2Proof Sys2Proof.Machine

/-! ### Encodings -/

/-- Decoding the word of any instruction gives it back, every operand at every value its field admits. -/
def Obligations.DecodeReadsBackEveryEncodedInstruction : Prop :=
  ∀ i : Instr, decodeWord (encode i) = .ok i

/-- A word that decodes is the word of the instruction it decodes to: decoding drops no bit. -/
def Obligations.DecodedWordIsTheEncodingOfItsInstruction : Prop :=
  ∀ (w : Word) (i : Instr), decodeWord w = .ok i → encode i = w

/-- The 16 legal command words (30_encoding R92 to R94, 95 section 2.1). -/
def Obligations.LegalCommandWordsAreTheSixteen : Prop :=
  ∀ w : Word, (∃ i, decodeCmd w = .ok i ∧ i.wellFormed = true) ↔
    w ∈ ([0x21, 0x31, 0x41, 0x51, 0x61, 0x71, 0x81, 0x121, 0x131, 0x141, 0x151, 0x161, 0x171, 0x181, 2, 3] : List Word)

/-- The legal micro-operation words are those of the table of R99. -/
def Obligations.LegalMicroOpWordsAreTheTable : Prop :=
  ∀ w : Word, (∃ i, decodeUop w = .ok i ∧ i.wellFormed = true) ↔ R99Word w

/-- Words written out from the encodings of R92, R93 and R99. -/
def Obligations.SpecWordsDecode : Prop :=
  decodeWord 0x00000051 = .ok (.enc 5 .a) ∧ decodeWord 0x00000181 = .ok (.enc 8 .b) ∧
  decodeWord 0x00000002 = .ok .mul ∧ decodeWord 0x00000003 = .ok .muls ∧
  decodeWord 0x1012BFFF = .ok (.ident .acc .none .none) ∧ decodeWord 0x2012647F = .ok (.dbl .d .ain .none) ∧
  decodeWord 0x301324C6 = .ok (.add .tmp .d (.ta 6)) ∧ decodeWord 0x40132539 = .ok (.sub .tmp .acc (.tb 57)) ∧
  decodeWord 0x5012E67F = .ok (.todbl .e .tmp .none) ∧ decodeWord 0x6011E5FF = .ok (.tosto (.ta 7) .e .none) ∧
  decodeWord 0x7013657F = .ok (.toext .rout .acc .none)

/-- The word of every instruction matches its row of spec/opcode_table.json. -/
def Obligations.EveryEncodingMatchesItsTableRow : Prop :=
  ∀ i : Instr, Sys2Proof.Laws.OpcodeRow.Statement i

/-! ### The commands -/

/-- Acceptance of `ENC` (R120, R124). -/
def Obligations.EncIsAcceptedAndStartsTheEncoding : Prop :=
  ∀ (s : State) (w : BitVec 4) (sel : Sel),
    AcceptsCommand s → 2 ≤ w.toNat → w.toNat ≤ 8 → (scalarOf sel s)[255] = false →
    exec (.enc w sel) s = .next { s with
      status := { s.status with busy := true, done := false }
      seq := { s.seq with q := .eRun, diag := false }
      enc := { ex := scalarOf sel s, ec := false, ez := 0, epos := 0, ew := w, esel := sel } }

/-- Acceptance of `MUL`, and of `MULS`, which also sets `diag` and clears the counters (R173): the encoding of `SA` with width 5 starts. -/
def Obligations.MulAndMulsAreAcceptedAndEncodeSAFirst : Prop :=
  ∀ s : State, AcceptsCommand s → s.sa[255] = false → s.sb[255] = false →
    exec .mul s = .next { s with
      status := { s.status with busy := true, done := false }
      seq := { s.seq with q := .mEncA, diag := false }
      enc := { ex := s.sa, ec := false, ez := 0, epos := 0, ew := 5, esel := .a } } ∧
    exec .muls s = .next { s with
      status := { s.status with busy := true, done := false }
      seq := { s.seq with q := .mEncA, diag := true }
      enc := { ex := s.sa, ec := false, ez := 0, epos := 0, ew := 5, esel := .a }
      iter := 0, skip := 0, score := 0 }

/-- The order of the checks on a `CMD` write (R235). -/
def Obligations.CommandChecksAreMadeInOrder : Prop :=
  ∀ (s : State) (v : Word), AcceptsCommand s →
    (v.extractLsb' 0 4 ≠ 1 ∧ v.extractLsb' 0 4 ≠ 2 ∧ v.extractLsb' 0 4 ≠ 3 →
      writeCmd v s = .next (faultRecorded 1 .a s)) ∧
    (v.extractLsb' 0 4 = 1 → v.extractLsb' 9 23 ≠ 0 → writeCmd v s = .next (faultRecorded 2 .a s)) ∧
    (v.extractLsb' 0 4 = 2 ∨ v.extractLsb' 0 4 = 3 → v.extractLsb' 4 28 ≠ 0 →
      writeCmd v s = .next (faultRecorded 2 .a s)) ∧
    (v.extractLsb' 0 4 = 1 → v.extractLsb' 9 23 = 0 →
      ((v.extractLsb' 4 4).toNat < 2 ∨ 8 < (v.extractLsb' 4 4).toNat → writeCmd v s = .next (faultRecorded 3 .a s)) ∧
      (2 ≤ (v.extractLsb' 4 4).toNat → (v.extractLsb' 4 4).toNat ≤ 8 →
        ((scalarOf (selOfBit v[8]) s)[255] = true →
          writeCmd v s = .next (faultRecorded 4 (selOfBit v[8]) s)) ∧
        ((scalarOf (selOfBit v[8]) s)[255] = false →
          ∃ t, writeCmd v s = .next t ∧ t.status.busy = true ∧ t.status.err = false))) ∧
    (v.extractLsb' 0 4 = 2 ∨ v.extractLsb' 0 4 = 3 → v.extractLsb' 4 28 = 0 →
      (s.sa[255] = true → writeCmd v s = .next (faultRecorded 4 .a s)) ∧
      (s.sa[255] = false → s.sb[255] = true → writeCmd v s = .next (faultRecorded 4 .b s)) ∧
      (s.sa[255] = false → s.sb[255] = false →
        ∃ t, writeCmd v s = .next t ∧ t.status.busy = true ∧ t.status.err = false))

/-- While `BUSY = 1` or `ERR = 1` a `CMD` write, whatever the word, does nothing (R23, R73, R238). That `exec` of a command includes this
test, so that it too answers the unchanged state there, is the model's choice (log entry 14, DEDUCED). -/
def Obligations.CommandsAreIgnoredWhileBusyOrFaulted : Prop :=
  ∀ (s : State) (v : Word) (i : Instr), s.status.busy = true ∨ s.status.err = true →
    writeCmd v s = .next s ∧ (i.isCommand = true → exec i s = .next s)

/-- A fault is precise (R236): the faulting write changes `STATUS` alone, and in it `ERR`, `ERRCODE`, `ERRSEL`, `DONE` alone. -/
def Obligations.FaultChangesStatusOnly : Prop :=
  ∀ (s t : State) (v : Word), AcceptsCommand s → writeCmd v s = .next t → t.status.err = true →
    ∃ (code : BitVec 4) (sel : Sel), 1 ≤ code.toNat ∧ code.toNat ≤ 4 ∧ (sel = .b → code = 4) ∧
      t = faultRecorded code sel s

/-- The fault state is sticky (R238): a step from a state with `ERR = 1` keeps `ERR`, `ERRCODE` and `ERRSEL`, unless it is a reset. -/
def Obligations.FaultStateIsSticky : Prop :=
  ∀ s t : State, s.status.err = true → step s = .next t → (∀ rest, s.port = none → s.host ≠ .reset :: rest) →
    t.status.err = true ∧ t.status.errCode = s.status.errCode ∧ t.status.errSel = s.status.errSel

/-- The frame of the three commands: what any of them leaves unchanged, every byte of the digit memories included. -/
def Obligations.CommandFrame : Prop :=
  ∀ (i : Instr) (s t : State), i.isCommand = true → exec i s = .next t →
    t = { s with
      status := t.status, iter := t.iter, skip := t.skip, score := t.score, enc := t.enc
      seq := { s.seq with q := t.seq.q, diag := t.seq.diag } } ∧
    (i ≠ .muls → t.iter = s.iter ∧ t.skip = s.skip ∧ t.score = s.score) ∧
    ∀ a, memRead t.mem a = memRead s.mem a

/-! ### The micro-operations -/

/-- `IDENT ACC` (R214). -/
def Obligations.IdentWritesTheIdentity : Prop :=
  ∀ s : State, exec (.ident .acc .none .none) s = .next { s with
    slots := { s.slots with acc := some Config.identity }, uops := s.uops ++ [0x1012BFFF] }

/-- `DBL D, AIN` and `DBL ACC, ACC` (R215). -/
def Obligations.DblWritesTheDouble : Prop :=
  ∀ (s : State) (p : PD),
    (s.slots.ain = some p → exec (.dbl .d .ain .none) s = .next { s with
      slots := { s.slots with d := some (Config.double p) }, uops := s.uops ++ [0x2012647F] }) ∧
    (s.slots.acc = some p → exec (.dbl .acc .acc .none) s = .next { s with
      slots := { s.slots with acc := some (Config.double p) }, uops := s.uops ++ [0x2012A57F] })

/-- `ADD TMP, D, TA[0..6]`, `ADD TMP, ACC, TA[0..7]`, `ADD TMP, ACC, TB[0..63]` (R216). -/
def Obligations.AddWritesTheMixedSum : Prop :=
  ∀ (s : State) (p : PD) (t : PS),
    (∀ j : Fin 8, j.val < 7 → s.slots.d = some p → s.slots.ta[j] = some t →
      exec (.add .tmp .d (.ta j)) s = .next { s with
        slots := { s.slots with tmp := some (Config.cadd p t) }
        uops := s.uops ++ [0x301324C0 + BitVec.ofNat 32 j.val] }) ∧
    (∀ j : Fin 8, s.slots.acc = some p → s.slots.ta[j] = some t →
      exec (.add .tmp .acc (.ta j)) s = .next { s with
        slots := { s.slots with tmp := some (Config.cadd p t) }
        uops := s.uops ++ [0x30132540 + BitVec.ofNat 32 j.val] }) ∧
    (∀ j : Fin 64, s.slots.acc = some p →
      exec (.add .tmp .acc (.tb j)) s = .next { s with
        slots := { s.slots with tmp := some (Config.cadd p (Config.tbConst j)) }
        uops := s.uops ++ [0x30132500 + BitVec.ofNat 32 j.val] })

/-- `SUB TMP, ACC, TA[0..7]`, `SUB TMP, ACC, TB[0..63]` (R217). -/
def Obligations.SubWritesTheMixedDifference : Prop :=
  ∀ (s : State) (p : PD) (t : PS),
    (∀ j : Fin 8, s.slots.acc = some p → s.slots.ta[j] = some t →
      exec (.sub .tmp .acc (.ta j)) s = .next { s with
        slots := { s.slots with tmp := some (Config.csub p t) }
        uops := s.uops ++ [0x40132540 + BitVec.ofNat 32 j.val] }) ∧
    (∀ j : Fin 64, s.slots.acc = some p →
      exec (.sub .tmp .acc (.tb j)) s = .next { s with
        slots := { s.slots with tmp := some (Config.csub p (Config.tbConst j)) }
        uops := s.uops ++ [0x40132500 + BitVec.ofNat 32 j.val] })

/-- `TODBL E, TMP` and `TODBL ACC, TMP` (R218). -/
def Obligations.TodblWritesTheDoublingForm : Prop :=
  ∀ (s : State) (p : PI), s.slots.tmp = some p →
    exec (.todbl .e .tmp .none) s = .next { s with
      slots := { s.slots with e := some (Config.toDbl p) }, uops := s.uops ++ [0x5012E67F] } ∧
    exec (.todbl .acc .tmp .none) s = .next { s with
      slots := { s.slots with acc := some (Config.toDbl p) }, uops := s.uops ++ [0x5012A67F] }

/-- `TOSTO TA[0], AIN` and `TOSTO TA[j], E`, j = 1..7 (R219). -/
def Obligations.TostoWritesTheStorageForm : Prop :=
  ∀ (s : State) (p : PD),
    (s.slots.ain = some p → exec (.tosto (.ta 0) .ain .none) s = .next { s with
      slots := { s.slots with ta := s.slots.ta.set 0 (some (Config.toSto p)) }
      uops := s.uops ++ [0x6010247F] }) ∧
    (∀ j : Fin 8, 0 < j.val → s.slots.e = some p → exec (.tosto (.ta j) .e .none) s = .next { s with
      slots := { s.slots with ta := s.slots.ta.set j.val (some (Config.toSto p)) j.isLt }
      uops := s.uops ++ [0x601025FF#32 + (BitVec.ofNat 32 j.val <<< 14)] })

/-- `TOEXT ROUT, ACC` (R220). -/
def Obligations.ToextWritesTheExternalForm : Prop :=
  ∀ (s : State) (p : PD), s.slots.acc = some p →
    exec (.toext .rout .acc .none) s = .next { s with
      slots := { s.slots with rout := some (Config.toExt p) }, uops := s.uops ++ [0x7013657F] }

/-- A micro-operation that reads a slot holding no value is a fault of the model (R42, R240). -/
def Obligations.EmptySourceSlotFaults : Prop :=
  ∀ s : State,
    (s.slots.ain = none → exec (.dbl .d .ain .none) s = .fault .emptySlot ∧
      exec (.tosto (.ta 0) .ain .none) s = .fault .emptySlot) ∧
    (s.slots.acc = none → exec (.dbl .acc .acc .none) s = .fault .emptySlot ∧
      exec (.toext .rout .acc .none) s = .fault .emptySlot ∧
      (∀ j : Fin 64, exec (.add .tmp .acc (.tb j)) s = .fault .emptySlot ∧
        exec (.sub .tmp .acc (.tb j)) s = .fault .emptySlot)) ∧
    (s.slots.tmp = none → exec (.todbl .e .tmp .none) s = .fault .emptySlot ∧
      exec (.todbl .acc .tmp .none) s = .fault .emptySlot) ∧
    (s.slots.e = none → ∀ j : Fin 8, 0 < j.val → exec (.tosto (.ta j) .e .none) s = .fault .emptySlot) ∧
    (∀ j : Fin 8, s.slots.acc = none ∨ s.slots.ta[j] = none →
      exec (.add .tmp .acc (.ta j)) s = .fault .emptySlot ∧ exec (.sub .tmp .acc (.ta j)) s = .fault .emptySlot) ∧
    (∀ j : Fin 8, j.val < 7 → s.slots.d = none ∨ s.slots.ta[j] = none →
      exec (.add .tmp .d (.ta j)) s = .fault .emptySlot)

/-- The point unit refuses every word outside the table of R99 (R100). -/
def Obligations.WordsOutsideTheTableAreRefused : Prop :=
  ∀ (s : State) (w : Word), ¬ R99Word w → pointUnit w s = .refused .outsideUopTable

/-- The frame of the micro-operations (R212): the word is appended, no slot but the destination changes, and nothing else changes, every
byte of the digit memories included. -/
def Obligations.MicroOpFrame : Prop :=
  ∀ (i : Instr) (s t : State), i.isCommand = false → exec i s = .next t →
    t = { s with slots := t.slots, uops := s.uops ++ [encode i] } ∧
    (∀ x : Slot, slotNumber x ≠ (encode i).extractLsb' 14 7 →
      slotPD t.slots x = slotPD s.slots x ∧ slotPI t.slots x = slotPI s.slots x ∧
      slotPS t.slots x = slotPS s.slots x ∧ slotPX t.slots x = slotPX s.slots x) ∧
    ∀ a, memRead t.mem a = memRead s.mem a

/-! ### The host's accesses -/

/-- The bits of `STATUS` (R24). -/
def Obligations.StatusWordHasTheFieldsOfR24 : Prop :=
  ∀ t : Status,
    (statusWord t)[0] = t.busy ∧ (statusWord t)[1] = t.done ∧ (statusWord t)[2] = t.err ∧
    (statusWord t)[3] = false ∧ (statusWord t).extractLsb' 4 4 = t.errCode ∧
    (statusWord t)[8] = selBit t.errSel ∧ (statusWord t).extractLsb' 9 23 = 0

/-- `HostRead` while `BUSY = 0` (R62, R63, R65, R66). -/
def Obligations.IdleHostReadFollowsTheMap : Prop :=
  ∀ s : State, s.status.busy = false →
    hostReadWord 0x000 s = 0 ∧ hostReadWord 0x001 s = statusWord s.status ∧
    hostReadWord 0x002 s = s.iter.setWidth 32 ∧ hostReadWord 0x003 s = s.skip.setWidth 32 ∧
    hostReadWord 0x004 s = s.score.setWidth 32 ∧
    (∀ k < 8, hostReadWord (BitVec.ofNat 10 (0x010 + k)) s = s.sa.extractLsb' (32 * k) 32 ∧
      hostReadWord (BitVec.ofNat 10 (0x018 + k)) s = s.sb.extractLsb' (32 * k) 32) ∧
    (∀ i < 256, ∀ v : Byte,
      (memRead s.mem (0x100 + i) = some v → hostReadWord (BitVec.ofNat 10 (0x100 + i)) s = v.signExtend 32) ∧
      (memRead s.mem (0x200 + i) = some v → hostReadWord (BitVec.ofNat 10 (0x200 + i)) s = v.signExtend 32)) ∧
    (∀ a : HostAddr, 0x005 ≤ a.toNat ∧ a.toNat ≤ 0x00F ∨ 0x020 ≤ a.toNat ∧ a.toNat ≤ 0x0FF ∨ 0x300 ≤ a.toNat →
      hostReadWord a s = 0)

/-- A host read changes no state of the unit and is recorded with its word (R63); `STATUS` reads exactly even while `BUSY = 1` (R73). -/
def Obligations.HostReadChangesNoUnitState : Prop :=
  ∀ (s : State) (a : HostAddr) (rest : List HostAction), s.port = none → s.host = .read a :: rest →
    (∃ v : Word, step s = .next { s with
      host := rest, seen := s.seen ++ [.word a v], draws := s.draws + 1 } ∧
      (a = 0x001 → v = statusWord s.status) ∧ (s.status.busy = false → v = idleReadWord a { s with host := rest }))

/-- `HostWrite` of a scalar word while `BUSY = 0` (R64, R65): that word is replaced, the other 224 bits and everything else stay. -/
def Obligations.HostWriteReplacesOneScalarWord : Prop :=
  ∀ (s : State) (v : Word) (k : Nat), s.status.busy = false → k < 8 →
    (∃ t, hostWrite (BitVec.ofNat 10 (0x010 + k)) v s = .next t ∧ t = { s with sa := t.sa } ∧
      t.sa.extractLsb' (32 * k) 32 = v ∧
      ∀ j < 8, j ≠ k → t.sa.extractLsb' (32 * j) 32 = s.sa.extractLsb' (32 * j) 32) ∧
    (∃ t, hostWrite (BitVec.ofNat 10 (0x018 + k)) v s = .next t ∧ t = { s with sb := t.sb } ∧
      t.sb.extractLsb' (32 * k) 32 = v ∧
      ∀ j < 8, j ≠ k → t.sb.extractLsb' (32 * j) 32 = s.sb.extractLsb' (32 * j) 32)

/-- Writes that do nothing: any write while `BUSY = 1` (R73), and a write to an address that is neither `CMD` nor a scalar word (R62, R64). -/
def Obligations.DroppedHostWrites : Prop :=
  ∀ (s : State) (a : HostAddr) (v : Word),
    s.status.busy = true ∨
      (a.toNat ≠ 0 ∧ ¬ (0x010 ≤ a.toNat ∧ a.toNat ≤ 0x01F)) →
    hostWrite a v s = .next s

/-- The host writes `AIN` and reads `ROUT` through the point unit while `BUSY = 0` and has no such move while `BUSY = 1` (R268, R271). -/
def Obligations.HostPointAccess : Prop :=
  ∀ (s : State) (p : PD) (rest : List HostAction), s.port = none →
    (s.host = .setPoint p :: rest →
      (s.status.busy = false → step s = .next { s with host := rest, slots := { s.slots with ain := some p } }) ∧
      (s.status.busy = true → step s = .refused .pointSlotWhileBusy)) ∧
    (s.host = .readPoint :: rest →
      (∀ r : PX, s.status.busy = false → s.slots.rout = some r →
        step s = .next { s with host := rest, seen := s.seen ++ [.point r] }) ∧
      (s.status.busy = false → s.slots.rout = none → step s = .fault .emptySlot) ∧
      (s.status.busy = true → step s = .refused .pointSlotWhileBusy))

/-! ### Reset -/

/-- The reset values that R45 gives. -/
def Obligations.ResetValuesOfR45 : Prop :=
  State.reset.sa = 0 ∧ State.reset.sb = 0 ∧ statusWord State.reset.status = 0 ∧
  State.reset.iter = 0 ∧ State.reset.skip = 0 ∧ State.reset.score = 0 ∧ State.reset.seq.q = .idle ∧
  (∀ a, memRead State.reset.mem a = none) ∧ State.reset.uops = [] ∧
  (∀ j : Fin 8, State.reset.slots.ta[j] = none) ∧ State.reset.slots.ain = none ∧ State.reset.slots.d = none ∧
  State.reset.slots.acc = none ∧ State.reset.slots.e = none ∧ State.reset.slots.tmp = none ∧
  State.reset.slots.rout = none

/-- Reset, whenever it is applied (R260, R261); the host's own data stay (log entry 9, the model's choice). -/
def Obligations.ResetEndsACommandAndClearsTheUnit : Prop :=
  ∀ (s : State) (rest : List HostAction), s.port = none → s.host = .reset :: rest →
    step s = .next { State.reset with host := rest, seen := s.seen, draws := s.draws }

/-! ### The step -/

/-- A step runs the decoded command: the host's write of its word to `CMD`. -/
def Obligations.StepRunsTheDecodedCommand : Prop :=
  ∀ (s : State) (w : Word) (i : Instr) (rest : List HostAction), s.port = none → s.host = .write 0x000 w :: rest →
    AcceptsCommand s → decodeCmd w = .ok i → step s = exec i { s with host := rest }

/-- A step runs the decoded micro-operation: the word at the point unit, and the word a sequencer rule issues, on the state with the
rule's other writes. -/
def Obligations.StepRunsTheDecodedMicroOp : Prop :=
  (∀ (s : State) (w : Word) (i : Instr), s.port = some w → decodeUop w = .ok i →
    step s = exec i { s with port := none }) ∧
  (∀ (i : Instr) (t : State), i.isCommand = false → issueRule (some i, t) = exec i t)

/-- A placed instruction word runs at the very next step. -/
def Obligations.PlacedWordRunsNext : Prop :=
  ∀ (s : State) (w : Nat) (i : Instr), w < 2 ^ 32 → decodeTableWord 32 w = some i →
    (i.isCommand = true → AcceptsCommand s →
      step (s.withFetchWord 32 w) = exec i { s with port := none }) ∧
    (i.isCommand = false → step (s.withFetchWord 32 w) = exec i { s with port := none })

/-- With no word at the point unit, a step is a step of the unit when the host has nothing to do (R274), when it lets the unit step, and
while it polls a busy unit. The host's list of actions with its `tick` is the model's choice (log entry 1, DESIGN CHOICE), and so is that
a poll of a busy unit is one unit step (log entry 15, DESIGN CHOICE). -/
def Obligations.StepIsTheUnitsStep : Prop :=
  ∀ (s : State) (rest : List HostAction), s.port = none →
    (s.host = [] → step s = unitStep s) ∧
    (s.host = .tick :: rest → step s = unitStep { s with host := rest }) ∧
    (s.host = .poll :: rest → s.status.busy = true → step s = unitStep s)

/-- An idle unit keeps all its state (R172, R251). -/
def Obligations.IdleUnitKeepsItsState : Prop :=
  ∀ s : State, s.status.busy = false → unitStep s = .next s

/-- No unit step writes `SA`, `SB` or `AIN`, nor anything of the host's (R21, R22, R170). -/
def Obligations.UnitStepKeepsOperands : Prop :=
  ∀ s t : State, unitStep s = .next t →
    t.sa = s.sa ∧ t.sb = s.sb ∧ t.slots.ain = s.slots.ain ∧ t.host = s.host ∧ t.seen = s.seen ∧ t.draws = s.draws

/-- A unit step appends at most one word to `UOPS`, and only a word of the table of R99 (R44, R99, R172). -/
def Obligations.UnitIssuesOnlyTableWords : Prop :=
  ∀ s t : State, unitStep s = .next t → t.uops = s.uops ∨ ∃ w, R99Word w ∧ t.uops = s.uops ++ [w]

/-! ### The encoder -/

/-- One encoder step before the last position (R126, R127). -/
def Obligations.EncoderStepWritesOneDigit : Prop :=
  ∀ (s : State) (win : Nat) (d : Int) (carry : Bool) (zeros : BitVec 3), s.status.busy = true → Encoding s →
    s.enc.epos.toNat < 255 → win = s.enc.ec.toNat + s.enc.ex.toNat % 2 ^ s.enc.ew.toNat →
    (s.enc.ez ≠ 0 ∧ d = 0 ∧ carry = s.enc.ec ∧ zeros = s.enc.ez - 1 ∨
     s.enc.ez = 0 ∧ win % 2 = 0 ∧ d = 0 ∧ carry = s.enc.ec ∧ zeros = 0 ∨
     s.enc.ez = 0 ∧ win % 2 = 1 ∧ win.testBit (s.enc.ew.toNat - 1) = false ∧ d = win ∧ carry = false ∧
       zeros = BitVec.ofNat 3 (s.enc.ew.toNat - 1) ∨
     s.enc.ez = 0 ∧ win % 2 = 1 ∧ win.testBit (s.enc.ew.toNat - 1) = true ∧ d = win - 2 ^ s.enc.ew.toNat ∧
       carry = true ∧ zeros = BitVec.ofNat 3 (s.enc.ew.toNat - 1)) →
    unitStep s = .next { s with
      mem := memWrite s.mem (digitAddr s.enc.esel (s.enc.epos.setWidth 8)) (BitVec.ofInt 8 d)
      enc := { s.enc with ex := s.enc.ex >>> 1, ec := carry, ez := zeros, epos := s.enc.epos + 1 } }

/-- The step that writes position 255 (R128, R174, R175). -/
def Obligations.LastEncoderStepEndsTheEncoding : Prop :=
  ∀ (s : State) (m : Memory), s.status.busy = true → s.enc.epos = 255 →
    m = memWrite s.mem (digitAddr s.enc.esel 255) (tc8 (recode s.enc).digit) →
    (s.seq.q = .eRun → unitStep s = .next { s with
      mem := m, enc := shiftEncoder s.enc, status := { s.status with busy := false, done := true }
      seq := { s.seq with q := .idle } }) ∧
    (s.seq.q = .mEncA → unitStep s = .next { s with
      mem := m, enc := { ex := s.sb, ec := false, ez := 0, epos := 0, ew := 8, esel := .b }
      seq := { s.seq with q := .mEncB } }) ∧
    (s.seq.q = .mEncB → unitStep s = .next { s with
      mem := m, enc := shiftEncoder s.enc, seq := { s.seq with q := .mTbl, tstep := 0 } })

/-- The reference digits (R123 (1) to (4), R131): they sum to the scalar, every nonzero one is odd and bounded and followed by `w − 1` zeros. -/
def Obligations.NafDigitsAreAWindowedNafOfTheScalar : Prop :=
  ∀ s w : Nat, s < 2 ^ 255 → 2 ≤ w → w ≤ 8 →
    nafResidual s w 256 = 0 ∧
    (∑ i ∈ Finset.range 256, naf s w i * 2 ^ i) = (s : Int) ∧
    (∀ i, naf s w i ≠ 0 → naf s w i % 2 = 1 ∧ (naf s w i).natAbs ≤ 2 ^ (w - 1) - 1 ∧
      ∀ j, i < j → j < i + w → naf s w j = 0) ∧
    (s = 0 → ∀ i, naf s w i = 0)

/-- `ENC` computes the reference digits in 256 unit steps and changes nothing else a host can see but `STATUS` (R120, R129, R276). -/
def Obligations.EncWritesTheNafDigits : Prop :=
  ∀ (s : State) (w : BitVec 4) (sel : Sel), AcceptsCommand s → 2 ≤ w.toNat → w.toNat ≤ 8 →
    (scalarOf sel s)[255] = false →
    ∃ t₀ t, exec (.enc w sel) s = .next t₀ ∧ unitRun 256 t₀ = .next t ∧
      HoldsDigits sel (naf (scalarOf sel s).toNat w.toNat) t ∧
      (∀ a, (∀ i : BitVec 8, a ≠ digitAddr sel i) → memRead t.mem a = memRead s.mem a) ∧
      t = { s with
        status := { s.status with busy := false, done := true }, mem := t.mem, enc := t.enc
        seq := { s.seq with q := .idle, diag := false } }

/-! ### The sequencer -/

/-- Phase `M_TBL` (R176). -/
def Obligations.TablePhaseIssuesTheNextEntry : Prop :=
  ∀ s : State, AtPhase s .mTbl →
    (s.seq.tstep.toNat < 22 → unitStep s =
      exec (tableUop s.seq.tstep.toNat) { s with seq := { s.seq with tstep := s.seq.tstep + 1 } }) ∧
    (s.seq.tstep = 22 → unitStep s = exec (.tosto (.ta 7) .e .none) { s with seq := { s.seq with q := .mScan } })

/-- The table build from `AIN` (R153, R154): after 23 steps `D` denotes 2·A and `TA[j]` denotes (2j + 1)·A, for every point unit that meets
the contract of R211. -/
def Obligations.TableBuildHoldsTheOddMultiples : Prop :=
  ∀ (s : State) (p : PD), AtPhase s .mTbl → s.seq.tstep = 0 → s.slots.ain = some p →
    ∃ t, unitRun 23 s = .next t ∧ AtPhase t .mScan ∧ t.slots.ain = some p ∧
      t.uops = s.uops ++ refTableBuild.map encode ∧
      ∀ (G : Type) [AddCommGroup G] (c : PointContract G),
        (∃ v, t.slots.d = some v ∧ c.denPD v = 2 • c.denPD p) ∧
        ∀ j : Fin 8, ∃ v, t.slots.ta[j] = some v ∧ c.denPS v = (2 * j.val + 1) • c.denPD p

/-- Phase `M_SCAN` (R177): `li` becomes the highest position with a nonzero digit, or 0 if there is none. -/
def Obligations.ScanFindsTheHighestNonzeroPosition : Prop :=
  ∀ s : State, AtPhase s .mScan →
    ∃ t, unitStep s = .next t ∧ t = { s with seq := { s.seq with li := t.seq.li, q := .mInit } } ∧
      (∀ i : BitVec 8, t.seq.li < i → digitByte .a i s = 0 ∧ digitByte .b i s = 0) ∧
      (digitByte .a t.seq.li s ≠ 0 ∨ digitByte .b t.seq.li s ≠ 0 ∨ t.seq.li = 0)

/-- Phase `M_INIT` (R178). -/
def Obligations.InitPhaseIssuesIdent : Prop :=
  ∀ s : State, AtPhase s .mInit →
    unitStep s = .next { s with
      slots := { s.slots with acc := some Config.identity }, uops := s.uops ++ [0x1012BFFF]
      seq := { s.seq with lsub := .lDbl, q := .mLoop } }

/-- Sub-step `L_DBL` (R180). -/
def Obligations.LoopDoublesTheAccumulator : Prop :=
  ∀ (s : State) (p : PD), AtSub s .lDbl → s.slots.acc = some p →
    unitStep s = .next { s with
      slots := { s.slots with acc := some (Config.double p) }, uops := s.uops ++ [0x2012A57F]
      iter := if s.seq.diag then s.iter + 1 else s.iter, seq := { s.seq with lsub := .lA } }

/-- Sub-step `L_A` (R181 to R183) on a digit of the table's range. -/
def Obligations.LoopCombinesWithTableA : Prop :=
  ∀ (s : State) (v : Byte) (p : PD) (j : Fin 8) (t : PS), AtSub s .lA →
    memRead s.mem (digitAddr .a s.seq.li) = some v →
    (0 < v.toInt → j.val = v.toInt.natAbs / 2 → s.slots.acc = some p → s.slots.ta[j] = some t →
      unitStep s = .next { s with
        slots := { s.slots with tmp := some (Config.cadd p t) }
        uops := s.uops ++ [0x30132540 + BitVec.ofNat 32 j.val], seq := { s.seq with lsub := .lAcv } }) ∧
    (v.toInt < 0 → j.val = v.toInt.natAbs / 2 → s.slots.acc = some p → s.slots.ta[j] = some t →
      unitStep s = .next { s with
        slots := { s.slots with tmp := some (Config.csub p t) }
        uops := s.uops ++ [0x40132540 + BitVec.ofNat 32 j.val], seq := { s.seq with lsub := .lAcv } }) ∧
    (v.toInt = 0 → unitStep s = .next { s with
        skip := if s.seq.diag then s.skip + 1 else s.skip, seq := { s.seq with lsub := .lB } })

/-- Sub-step `L_B` (R181, R186, R187) on a digit of the table's range. -/
def Obligations.LoopCombinesWithTableB : Prop :=
  ∀ (s : State) (v : Byte) (p : PD) (j : Fin 64), AtSub s .lB →
    memRead s.mem (digitAddr .b s.seq.li) = some v →
    (0 < v.toInt → j.val = v.toInt.natAbs / 2 → s.slots.acc = some p →
      unitStep s = .next { s with
        slots := { s.slots with tmp := some (Config.cadd p (Config.tbConst j)) }
        uops := s.uops ++ [0x30132500 + BitVec.ofNat 32 j.val], seq := { s.seq with lsub := .lBcv } }) ∧
    (v.toInt < 0 → j.val = v.toInt.natAbs / 2 → s.slots.acc = some p →
      unitStep s = .next { s with
        slots := { s.slots with tmp := some (Config.csub p (Config.tbConst j)) }
        uops := s.uops ++ [0x40132500 + BitVec.ofNat 32 j.val], seq := { s.seq with lsub := .lBcv } }) ∧
    (v.toInt = 0 → unitStep s = .next { s with
        skip := if s.seq.diag then s.skip + 1 else s.skip, seq := { s.seq with lsub := .lNext } })

/-- Sub-steps `L_ACV` and `L_BCV` (R184, R188). -/
def Obligations.LoopConvertsAfterACombine : Prop :=
  ∀ (s : State) (p : PI), s.slots.tmp = some p →
    (AtSub s .lAcv → unitStep s = .next { s with
      slots := { s.slots with acc := some (Config.toDbl p) }, uops := s.uops ++ [0x5012A67F]
      seq := { s.seq with lsub := .lB } }) ∧
    (AtSub s .lBcv → unitStep s = .next { s with
      slots := { s.slots with acc := some (Config.toDbl p) }, uops := s.uops ++ [0x5012A67F]
      seq := { s.seq with lsub := .lNext } })

/-- Sub-step `L_NEXT` (R189, R190). -/
def Obligations.LoopCountsDownToZero : Prop :=
  ∀ s : State, AtSub s .lNext →
    (0 < s.seq.li.toNat → unitStep s = .next { s with
      seq := { s.seq with li := s.seq.li - 1, lsub := .lDbl } }) ∧
    (s.seq.li = 0 → unitStep s = .next { s with seq := { s.seq with q := .mOut } })

/-- Phase `M_OUT` (R191). -/
def Obligations.OutPhaseWritesTheResult : Prop :=
  ∀ (s : State) (p : PD), AtPhase s .mOut → s.slots.acc = some p →
    unitStep s = .next { s with
      slots := { s.slots with rout := some (Config.toExt p) }, uops := s.uops ++ [0x7013657F]
      score := if s.seq.diag then 2 * s.iter.setWidth 10 - s.skip else s.score
      status := { s.status with busy := false, done := true }, seq := { s.seq with q := .idle } }

/-- The length of the micro-operation sequence and the bounds of R200 and R277. -/
def Obligations.MultiplicationLengthAndBounds : Prop :=
  ∀ a b : Nat, a < 2 ^ 255 → b < 2 ^ 255 →
    (refUops a b).length = 26 + refFirst a b + 2 * refCombines a b ∧
    refFirst a b ≤ 255 ∧ refCombines a b ≤ 84 ∧ refSteps a b ≤ 1646 ∧ (refUops a b).length ≤ 449 ∧
    542 ≤ refSteps a b ∧ 26 ≤ (refUops a b).length

/-- `MUL` and `MULS` issue the closed form of R200, in the number of steps of R276, and leave the digits of both scalars. -/
def Obligations.MultiplicationIssuesTheClosedForm : Prop :=
  ∀ (s : State) (p : PD) (i : Instr), i = .mul ∨ i = .muls → AcceptsCommand s →
    s.sa[255] = false → s.sb[255] = false → s.slots.ain = some p →
    ∃ t₀ t, exec i s = .next t₀ ∧ unitRun (refSteps s.sa.toNat s.sb.toNat) t₀ = .next t ∧
      t.status = { s.status with busy := false, done := true } ∧ t.seq.q = .idle ∧
      t.uops = s.uops ++ (refUops s.sa.toNat s.sb.toNat).map encode ∧
      HoldsDigits .a (naf s.sa.toNat 5) t ∧ HoldsDigits .b (naf s.sb.toNat 8) t ∧
      t.sa = s.sa ∧ t.sb = s.sb ∧ t.slots.ain = some p

/-- The result (R195): when the command completes, `ROUT` denotes a·A + b·B, for every point unit and table of B that meet their contracts
(R211, R158). -/
def Obligations.MultiplicationComputesTheDoubleBaseSum : Prop :=
  ∀ (s : State) (p : PD) (i : Instr), i = .mul ∨ i = .muls → AcceptsCommand s →
    s.sa[255] = false → s.sb[255] = false → s.slots.ain = some p →
    ∃ t₀ t r, exec i s = .next t₀ ∧ unitRun (refSteps s.sa.toNat s.sb.toNat) t₀ = .next t ∧
      t.status.busy = false ∧ t.status.done = true ∧ t.slots.rout = some r ∧
      ∀ (G : Type) [AddCommGroup G] (c : PointContract G) (gen : G), TableOfB c gen →
        c.denPX r = s.sa.toNat • c.denPD p + s.sb.toNat • gen

/-- The counters after a completed `MULS` (R196 to R198), and after a `MUL`, which leaves them alone. -/
def Obligations.CountersAfterAMultiplication : Prop :=
  ∀ (s : State) (p : PD) (a b : Nat), AcceptsCommand s → s.sa[255] = false → s.sb[255] = false →
    s.slots.ain = some p → a = s.sa.toNat → b = s.sb.toNat →
    (∃ t₀ t, exec .muls s = .next t₀ ∧ unitRun (refSteps a b) t₀ = .next t ∧ t.status.busy = false ∧
      t.iter.toNat = refFirst a b + 1 ∧
      t.skip.toNat = zeroCount (naf a 5) (refFirst a b + 1) + zeroCount (naf b 8) (refFirst a b + 1) ∧
      t.score.toNat + t.skip.toNat = 2 * t.iter.toNat ∧ t.score.toNat = refCombines a b) ∧
    (∃ t₀ t, exec .mul s = .next t₀ ∧ unitRun (refSteps a b) t₀ = .next t ∧ t.status.busy = false ∧
      t.iter = s.iter ∧ t.skip = s.skip ∧ t.score = s.score)

/-- The counters never feed back (R199): two states that differ at most in `diag` and the counters step alike, and `MUL` and `MULS` start
from such states. -/
def Obligations.CountersNeverFeedBack : Prop :=
  (∀ s t : State, SameButDiag s t → OutcomesRelated SameButDiag (unitStep s) (unitStep t)) ∧
  (∀ s : State, OutcomesRelated SameButDiag (exec .mul s) (exec .muls s))

/-- The pseudo-command `multiply(a, A, b)` (R103), as the host's actions: every one is made, the poll ends at the command's completion, and
the point read at the end denotes a·A + b·B (R195, R268). -/
def Obligations.MultiplyActionsReadTheDoubleBaseSum : Prop :=
  ∀ (s : State) (a b : Scalar) (p : PD) (rest : List HostAction), s.port = none → AcceptsCommand s →
    a[255] = false → b[255] = false → s.host = multiplyActions a p b ++ rest →
    ∃ t r, RunsTo (refSteps a.toNat b.toNat + 20) s t ∧ t.host = rest ∧ t.status.busy = false ∧ t.status.done = true ∧
      t.seen = s.seen ++ [.word 0x001 (statusWord t.status), .point r] ∧
      ∀ (G : Type) [AddCommGroup G] (c : PointContract G) (gen : G), TableOfB c gen →
        c.denPX r = a.toNat • c.denPD p + b.toNat • gen

/-! ### Invariants -/

/-- The invariant holds right after reset. -/
def Obligations.InvariantHoldsAtReset : Prop := MachineInv State.reset

/-- Every step keeps the invariant. -/
def Obligations.EveryStepKeepsTheInvariant : Prop :=
  ∀ s t : State, MachineInv s → step s = .next t → MachineInv t
end

