-- ==== Sys2Proof/Laws/Memory.lean ====
section
/-! SUPPORT. The laws of the digit memories: a read after a write, and that every write keeps the canonical form. -/

namespace Sys2Proof.Machine

@[simp] theorem memRead_nil (a : Nat) : memRead [] a = none := rfl

/-- A read after a write of the same address gives the byte written; every other address reads as before. -/
theorem memRead_memWrite (m : Memory) (a b : Nat) (v : Byte) :
    memRead (memWrite m a v) b = if b = a then some v else memRead m b := by
  induction m with
  | nil => simp [memWrite, memRead]
  | cons c m ih =>
    simp only [memWrite]
    split_ifs with h₁ h₂ <;> simp_all [memRead]

@[simp] theorem memRead_memWrite_same (m : Memory) (a : Nat) (v : Byte) :
    memRead (memWrite m a v) a = some v := by simp [memRead_memWrite]

theorem memRead_memWrite_other (m : Memory) {a b : Nat} (v : Byte) (h : b ≠ a) :
    memRead (memWrite m a v) b = memRead m b := by simp [memRead_memWrite, h]

/-- The entries of a written memory are the written one and old ones. -/
theorem mem_memWrite {m : Memory} {a : Nat} {v : Byte} {c : Host.Cell} (h : c ∈ memWrite m a v) :
    c = (a, v) ∨ c ∈ m := by
  induction m with
  | nil => simpa [memWrite] using h
  | cons d m ih =>
    simp only [memWrite] at h
    split_ifs at h with h₁ h₂
    · simpa using h
    · rcases List.mem_cons.1 h with h | h
      · exact .inl h
      · exact .inr (List.mem_cons_of_mem _ h)
    · rcases List.mem_cons.1 h with h | h
      · exact .inr (h ▸ List.mem_cons_self)
      · exact (ih h).imp id (List.mem_cons_of_mem _)

/-- Rising addresses, said of the head: it lies below every later address and the rest is rising. -/
theorem memRising_cons (c : Host.Cell) (m : Memory) :
    memRising (c :: m) = true ↔ (∀ c' ∈ m, c.1 < c'.1) ∧ memRising m = true := by
  induction m generalizing c with
  | nil => simp [memRising]
  | cons d m ih =>
    simp only [memRising, Bool.and_eq_true, decide_eq_true_eq, List.forall_mem_cons]
    constructor
    · rintro ⟨h, hr⟩
      exact ⟨⟨h, fun c' hc => lt_trans h (((ih d).1 hr).1 c' hc)⟩, hr⟩
    · rintro ⟨⟨h, -⟩, hr⟩
      exact ⟨h, hr⟩

theorem memRising_memWrite {m : Memory} (a : Nat) (v : Byte) (h : memRising m = true) :
    memRising (memWrite m a v) = true := by
  induction m with
  | nil => rfl
  | cons c m ih =>
    obtain ⟨hlt, hr⟩ := (memRising_cons c m).1 h
    simp only [memWrite]
    split_ifs with h₁ h₂
    · refine (memRising_cons _ _).2 ⟨?_, h⟩
      simp only [List.forall_mem_cons]
      exact ⟨h₁, fun c' hc => lt_trans h₁ (hlt c' hc)⟩
    · exact (memRising_cons _ _).2 ⟨fun c' hc => h₂ ▸ hlt c' hc, hr⟩
    · refine (memRising_cons _ _).2 ⟨fun c' hc => ?_, ih hr⟩
      rcases mem_memWrite hc with rfl | hc
      · show c.1 < a
        omega
      · exact hlt c' hc

theorem wf_iff (m : Memory) :
    Memory.wf m = true ↔ memRising m = true ∧ ∀ c ∈ m, 0x100 ≤ c.1 ∧ c.1 < 0x300 := by
  simp [Memory.wf]

/-- A write at a digit address keeps the canonical form. -/
theorem wf_memWrite {m : Memory} {a : Nat} (v : Byte) (h : Memory.wf m = true)
    (lo : 0x100 ≤ a) (hi : a < 0x300) : Memory.wf (memWrite m a v) = true := by
  obtain ⟨hr, hb⟩ := (wf_iff m).1 h
  refine (wf_iff _).2 ⟨memRising_memWrite a v hr, fun c hc => ?_⟩
  rcases mem_memWrite hc with rfl | hc
  · exact ⟨lo, hi⟩
  · exact hb c hc

theorem digitAddr_bounds (sel : Sel) (i : BitVec 8) :
    0x100 ≤ digitAddr sel i ∧ digitAddr sel i < 0x300 := by
  have := i.isLt
  cases sel <;> simp only [digitAddr] <;> omega

theorem digitAddr_inj {sel sel' : Sel} {i i' : BitVec 8} :
    digitAddr sel i = digitAddr sel' i' ↔ sel = sel' ∧ i = i' := by
  have h := i.isLt
  have h' := i'.isLt
  constructor
  · intro e
    cases sel <;> cases sel' <;> simp only [digitAddr] at e
    · exact ⟨rfl, BitVec.eq_of_toNat_eq (by omega)⟩
    · omega
    · omega
    · exact ⟨rfl, BitVec.eq_of_toNat_eq (by omega)⟩
  · rintro ⟨rfl, rfl⟩
    rfl

/-- Writing a digit keeps the canonical form of the digit memories. -/
theorem wf_writeDigit {s : State} (sel : Sel) (i : BitVec 8) (d : Int) (h : Memory.wf s.mem = true) :
    Memory.wf (writeDigit sel i d s).mem = true :=
  wf_memWrite _ h (digitAddr_bounds sel i).1 (digitAddr_bounds sel i).2

theorem wf_reset : Memory.wf State.reset.mem = true := rfl

/-- A digit just written reads as its pattern. -/
theorem digitByte_writeDigit_same (s : State) (sel : Sel) (i : BitVec 8) (d : Int) :
    digitByte sel i (writeDigit sel i d s) = tc8 d := by
  simp [digitByte, writeDigit]

/-- Writing a digit leaves every other digit alone. -/
theorem digitByte_writeDigit_other (s : State) {sel sel' : Sel} {i i' : BitVec 8} (d : Int)
    (h : ¬ (sel' = sel ∧ i' = i)) :
    digitByte sel' i' (writeDigit sel i d s) = digitByte sel' i' s := by
  have : digitAddr sel' i' ≠ digitAddr sel i := fun e => h (digitAddr_inj.1 e)
  simp [digitByte, writeDigit, memRead_memWrite, this]

end Sys2Proof.Machine
end

