-- ==== Sys2Proof/Laws/State.lean ====
section
/-! SUPPORT. What each shared update of the state does to each field of the state: one lemma per field, true by `rfl`, for
`simp`. Later proofs cite these and unfold no record update. -/

namespace Sys2Proof.Machine

/-! ### `writeDigit` -/

@[simp] theorem writeDigit_sa (sel : Sel) (i : BitVec 8) (d : Int) (s : State) :
    (writeDigit sel i d s).sa = s.sa := rfl

@[simp] theorem writeDigit_sb (sel : Sel) (i : BitVec 8) (d : Int) (s : State) :
    (writeDigit sel i d s).sb = s.sb := rfl

@[simp] theorem writeDigit_status (sel : Sel) (i : BitVec 8) (d : Int) (s : State) :
    (writeDigit sel i d s).status = s.status := rfl

@[simp] theorem writeDigit_iter (sel : Sel) (i : BitVec 8) (d : Int) (s : State) :
    (writeDigit sel i d s).iter = s.iter := rfl

@[simp] theorem writeDigit_skip (sel : Sel) (i : BitVec 8) (d : Int) (s : State) :
    (writeDigit sel i d s).skip = s.skip := rfl

@[simp] theorem writeDigit_score (sel : Sel) (i : BitVec 8) (d : Int) (s : State) :
    (writeDigit sel i d s).score = s.score := rfl

@[simp] theorem writeDigit_mem (sel : Sel) (i : BitVec 8) (d : Int) (s : State) :
    (writeDigit sel i d s).mem = memWrite s.mem (digitAddr sel i) (tc8 d) := rfl

@[simp] theorem writeDigit_enc (sel : Sel) (i : BitVec 8) (d : Int) (s : State) :
    (writeDigit sel i d s).enc = s.enc := rfl

@[simp] theorem writeDigit_seq (sel : Sel) (i : BitVec 8) (d : Int) (s : State) :
    (writeDigit sel i d s).seq = s.seq := rfl

@[simp] theorem writeDigit_slots (sel : Sel) (i : BitVec 8) (d : Int) (s : State) :
    (writeDigit sel i d s).slots = s.slots := rfl

@[simp] theorem writeDigit_uops (sel : Sel) (i : BitVec 8) (d : Int) (s : State) :
    (writeDigit sel i d s).uops = s.uops := rfl

@[simp] theorem writeDigit_port (sel : Sel) (i : BitVec 8) (d : Int) (s : State) :
    (writeDigit sel i d s).port = s.port := rfl

@[simp] theorem writeDigit_host (sel : Sel) (i : BitVec 8) (d : Int) (s : State) :
    (writeDigit sel i d s).host = s.host := rfl

@[simp] theorem writeDigit_seen (sel : Sel) (i : BitVec 8) (d : Int) (s : State) :
    (writeDigit sel i d s).seen = s.seen := rfl

@[simp] theorem writeDigit_draws (sel : Sel) (i : BitVec 8) (d : Int) (s : State) :
    (writeDigit sel i d s).draws = s.draws := rfl

/-! ### `startEncoding` -/

@[simp] theorem startEncoding_sa (sel : Sel) (w : BitVec 4) (s : State) :
    (startEncoding sel w s).sa = s.sa := rfl

@[simp] theorem startEncoding_sb (sel : Sel) (w : BitVec 4) (s : State) :
    (startEncoding sel w s).sb = s.sb := rfl

@[simp] theorem startEncoding_status (sel : Sel) (w : BitVec 4) (s : State) :
    (startEncoding sel w s).status = s.status := rfl

@[simp] theorem startEncoding_iter (sel : Sel) (w : BitVec 4) (s : State) :
    (startEncoding sel w s).iter = s.iter := rfl

@[simp] theorem startEncoding_skip (sel : Sel) (w : BitVec 4) (s : State) :
    (startEncoding sel w s).skip = s.skip := rfl

@[simp] theorem startEncoding_score (sel : Sel) (w : BitVec 4) (s : State) :
    (startEncoding sel w s).score = s.score := rfl

@[simp] theorem startEncoding_mem (sel : Sel) (w : BitVec 4) (s : State) :
    (startEncoding sel w s).mem = s.mem := rfl

@[simp] theorem startEncoding_enc (sel : Sel) (w : BitVec 4) (s : State) :
    (startEncoding sel w s).enc = ⟨scalarOf sel s, false, 0, 0, w, sel⟩ := rfl

@[simp] theorem startEncoding_seq (sel : Sel) (w : BitVec 4) (s : State) :
    (startEncoding sel w s).seq = s.seq := rfl

@[simp] theorem startEncoding_slots (sel : Sel) (w : BitVec 4) (s : State) :
    (startEncoding sel w s).slots = s.slots := rfl

@[simp] theorem startEncoding_uops (sel : Sel) (w : BitVec 4) (s : State) :
    (startEncoding sel w s).uops = s.uops := rfl

@[simp] theorem startEncoding_port (sel : Sel) (w : BitVec 4) (s : State) :
    (startEncoding sel w s).port = s.port := rfl

@[simp] theorem startEncoding_host (sel : Sel) (w : BitVec 4) (s : State) :
    (startEncoding sel w s).host = s.host := rfl

@[simp] theorem startEncoding_seen (sel : Sel) (w : BitVec 4) (s : State) :
    (startEncoding sel w s).seen = s.seen := rfl

@[simp] theorem startEncoding_draws (sel : Sel) (w : BitVec 4) (s : State) :
    (startEncoding sel w s).draws = s.draws := rfl

/-! ### `beginCommand` -/

@[simp] theorem beginCommand_sa (q : Phase) (dg : Bool) (s : State) :
    (beginCommand q dg s).sa = s.sa := rfl

@[simp] theorem beginCommand_sb (q : Phase) (dg : Bool) (s : State) :
    (beginCommand q dg s).sb = s.sb := rfl

@[simp] theorem beginCommand_status (q : Phase) (dg : Bool) (s : State) :
    (beginCommand q dg s).status = { s.status with busy := true, done := false } := rfl

@[simp] theorem beginCommand_iter (q : Phase) (dg : Bool) (s : State) :
    (beginCommand q dg s).iter = s.iter := rfl

@[simp] theorem beginCommand_skip (q : Phase) (dg : Bool) (s : State) :
    (beginCommand q dg s).skip = s.skip := rfl

@[simp] theorem beginCommand_score (q : Phase) (dg : Bool) (s : State) :
    (beginCommand q dg s).score = s.score := rfl

@[simp] theorem beginCommand_mem (q : Phase) (dg : Bool) (s : State) :
    (beginCommand q dg s).mem = s.mem := rfl

@[simp] theorem beginCommand_enc (q : Phase) (dg : Bool) (s : State) :
    (beginCommand q dg s).enc = s.enc := rfl

@[simp] theorem beginCommand_seq (q : Phase) (dg : Bool) (s : State) :
    (beginCommand q dg s).seq = { s.seq with q := q, diag := dg } := rfl

@[simp] theorem beginCommand_slots (q : Phase) (dg : Bool) (s : State) :
    (beginCommand q dg s).slots = s.slots := rfl

@[simp] theorem beginCommand_uops (q : Phase) (dg : Bool) (s : State) :
    (beginCommand q dg s).uops = s.uops := rfl

@[simp] theorem beginCommand_port (q : Phase) (dg : Bool) (s : State) :
    (beginCommand q dg s).port = s.port := rfl

@[simp] theorem beginCommand_host (q : Phase) (dg : Bool) (s : State) :
    (beginCommand q dg s).host = s.host := rfl

@[simp] theorem beginCommand_seen (q : Phase) (dg : Bool) (s : State) :
    (beginCommand q dg s).seen = s.seen := rfl

@[simp] theorem beginCommand_draws (q : Phase) (dg : Bool) (s : State) :
    (beginCommand q dg s).draws = s.draws := rfl

/-! ### `endCommand` -/

@[simp] theorem endCommand_sa (s : State) :
    (endCommand s).sa = s.sa := rfl

@[simp] theorem endCommand_sb (s : State) :
    (endCommand s).sb = s.sb := rfl

@[simp] theorem endCommand_status (s : State) :
    (endCommand s).status = { s.status with busy := false, done := true } := rfl

@[simp] theorem endCommand_iter (s : State) :
    (endCommand s).iter = s.iter := rfl

@[simp] theorem endCommand_skip (s : State) :
    (endCommand s).skip = s.skip := rfl

@[simp] theorem endCommand_score (s : State) :
    (endCommand s).score = s.score := rfl

@[simp] theorem endCommand_mem (s : State) :
    (endCommand s).mem = s.mem := rfl

@[simp] theorem endCommand_enc (s : State) :
    (endCommand s).enc = s.enc := rfl

@[simp] theorem endCommand_seq (s : State) :
    (endCommand s).seq = { s.seq with q := .idle } := rfl

@[simp] theorem endCommand_slots (s : State) :
    (endCommand s).slots = s.slots := rfl

@[simp] theorem endCommand_uops (s : State) :
    (endCommand s).uops = s.uops := rfl

@[simp] theorem endCommand_port (s : State) :
    (endCommand s).port = s.port := rfl

@[simp] theorem endCommand_host (s : State) :
    (endCommand s).host = s.host := rfl

@[simp] theorem endCommand_seen (s : State) :
    (endCommand s).seen = s.seen := rfl

@[simp] theorem endCommand_draws (s : State) :
    (endCommand s).draws = s.draws := rfl

/-! ### `clearCounters` -/

@[simp] theorem clearCounters_sa (s : State) :
    (clearCounters s).sa = s.sa := rfl

@[simp] theorem clearCounters_sb (s : State) :
    (clearCounters s).sb = s.sb := rfl

@[simp] theorem clearCounters_status (s : State) :
    (clearCounters s).status = s.status := rfl

@[simp] theorem clearCounters_iter (s : State) :
    (clearCounters s).iter = 0 := rfl

@[simp] theorem clearCounters_skip (s : State) :
    (clearCounters s).skip = 0 := rfl

@[simp] theorem clearCounters_score (s : State) :
    (clearCounters s).score = 0 := rfl

@[simp] theorem clearCounters_mem (s : State) :
    (clearCounters s).mem = s.mem := rfl

@[simp] theorem clearCounters_enc (s : State) :
    (clearCounters s).enc = s.enc := rfl

@[simp] theorem clearCounters_seq (s : State) :
    (clearCounters s).seq = s.seq := rfl

@[simp] theorem clearCounters_slots (s : State) :
    (clearCounters s).slots = s.slots := rfl

@[simp] theorem clearCounters_uops (s : State) :
    (clearCounters s).uops = s.uops := rfl

@[simp] theorem clearCounters_port (s : State) :
    (clearCounters s).port = s.port := rfl

@[simp] theorem clearCounters_host (s : State) :
    (clearCounters s).host = s.host := rfl

@[simp] theorem clearCounters_seen (s : State) :
    (clearCounters s).seen = s.seen := rfl

@[simp] theorem clearCounters_draws (s : State) :
    (clearCounters s).draws = s.draws := rfl

/-! ### `raiseFault` -/

@[simp] theorem raiseFault_sa (c : FaultCause) (sel : Sel) (s : State) :
    (raiseFault c sel s).sa = s.sa := rfl

@[simp] theorem raiseFault_sb (c : FaultCause) (sel : Sel) (s : State) :
    (raiseFault c sel s).sb = s.sb := rfl

@[simp] theorem raiseFault_status (c : FaultCause) (sel : Sel) (s : State) :
    (raiseFault c sel s).status = { s.status with err := true, errCode := faultCode c, errSel := sel, done := false } := rfl

@[simp] theorem raiseFault_iter (c : FaultCause) (sel : Sel) (s : State) :
    (raiseFault c sel s).iter = s.iter := rfl

@[simp] theorem raiseFault_skip (c : FaultCause) (sel : Sel) (s : State) :
    (raiseFault c sel s).skip = s.skip := rfl

@[simp] theorem raiseFault_score (c : FaultCause) (sel : Sel) (s : State) :
    (raiseFault c sel s).score = s.score := rfl

@[simp] theorem raiseFault_mem (c : FaultCause) (sel : Sel) (s : State) :
    (raiseFault c sel s).mem = s.mem := rfl

@[simp] theorem raiseFault_enc (c : FaultCause) (sel : Sel) (s : State) :
    (raiseFault c sel s).enc = s.enc := rfl

@[simp] theorem raiseFault_seq (c : FaultCause) (sel : Sel) (s : State) :
    (raiseFault c sel s).seq = s.seq := rfl

@[simp] theorem raiseFault_slots (c : FaultCause) (sel : Sel) (s : State) :
    (raiseFault c sel s).slots = s.slots := rfl

@[simp] theorem raiseFault_uops (c : FaultCause) (sel : Sel) (s : State) :
    (raiseFault c sel s).uops = s.uops := rfl

@[simp] theorem raiseFault_port (c : FaultCause) (sel : Sel) (s : State) :
    (raiseFault c sel s).port = s.port := rfl

@[simp] theorem raiseFault_host (c : FaultCause) (sel : Sel) (s : State) :
    (raiseFault c sel s).host = s.host := rfl

@[simp] theorem raiseFault_seen (c : FaultCause) (sel : Sel) (s : State) :
    (raiseFault c sel s).seen = s.seen := rfl

@[simp] theorem raiseFault_draws (c : FaultCause) (sel : Sel) (s : State) :
    (raiseFault c sel s).draws = s.draws := rfl

/-! ### `countIter` -/

@[simp] theorem countIter_sa (s : State) :
    (countIter s).sa = s.sa := rfl

@[simp] theorem countIter_sb (s : State) :
    (countIter s).sb = s.sb := rfl

@[simp] theorem countIter_status (s : State) :
    (countIter s).status = s.status := rfl

@[simp] theorem countIter_iter (s : State) :
    (countIter s).iter = if s.seq.diag then s.iter + 1 else s.iter := rfl

@[simp] theorem countIter_skip (s : State) :
    (countIter s).skip = s.skip := rfl

@[simp] theorem countIter_score (s : State) :
    (countIter s).score = s.score := rfl

@[simp] theorem countIter_mem (s : State) :
    (countIter s).mem = s.mem := rfl

@[simp] theorem countIter_enc (s : State) :
    (countIter s).enc = s.enc := rfl

@[simp] theorem countIter_seq (s : State) :
    (countIter s).seq = s.seq := rfl

@[simp] theorem countIter_slots (s : State) :
    (countIter s).slots = s.slots := rfl

@[simp] theorem countIter_uops (s : State) :
    (countIter s).uops = s.uops := rfl

@[simp] theorem countIter_port (s : State) :
    (countIter s).port = s.port := rfl

@[simp] theorem countIter_host (s : State) :
    (countIter s).host = s.host := rfl

@[simp] theorem countIter_seen (s : State) :
    (countIter s).seen = s.seen := rfl

@[simp] theorem countIter_draws (s : State) :
    (countIter s).draws = s.draws := rfl

/-! ### `countSkip` -/

@[simp] theorem countSkip_sa (s : State) :
    (countSkip s).sa = s.sa := rfl

@[simp] theorem countSkip_sb (s : State) :
    (countSkip s).sb = s.sb := rfl

@[simp] theorem countSkip_status (s : State) :
    (countSkip s).status = s.status := rfl

@[simp] theorem countSkip_iter (s : State) :
    (countSkip s).iter = s.iter := rfl

@[simp] theorem countSkip_skip (s : State) :
    (countSkip s).skip = if s.seq.diag then s.skip + 1 else s.skip := rfl

@[simp] theorem countSkip_score (s : State) :
    (countSkip s).score = s.score := rfl

@[simp] theorem countSkip_mem (s : State) :
    (countSkip s).mem = s.mem := rfl

@[simp] theorem countSkip_enc (s : State) :
    (countSkip s).enc = s.enc := rfl

@[simp] theorem countSkip_seq (s : State) :
    (countSkip s).seq = s.seq := rfl

@[simp] theorem countSkip_slots (s : State) :
    (countSkip s).slots = s.slots := rfl

@[simp] theorem countSkip_uops (s : State) :
    (countSkip s).uops = s.uops := rfl

@[simp] theorem countSkip_port (s : State) :
    (countSkip s).port = s.port := rfl

@[simp] theorem countSkip_host (s : State) :
    (countSkip s).host = s.host := rfl

@[simp] theorem countSkip_seen (s : State) :
    (countSkip s).seen = s.seen := rfl

@[simp] theorem countSkip_draws (s : State) :
    (countSkip s).draws = s.draws := rfl

/-! ### `writeScore` -/

@[simp] theorem writeScore_sa (s : State) :
    (writeScore s).sa = s.sa := rfl

@[simp] theorem writeScore_sb (s : State) :
    (writeScore s).sb = s.sb := rfl

@[simp] theorem writeScore_status (s : State) :
    (writeScore s).status = s.status := rfl

@[simp] theorem writeScore_iter (s : State) :
    (writeScore s).iter = s.iter := rfl

@[simp] theorem writeScore_skip (s : State) :
    (writeScore s).skip = s.skip := rfl

@[simp] theorem writeScore_score (s : State) :
    (writeScore s).score = if s.seq.diag then 2 * s.iter.setWidth 10 - s.skip else s.score := rfl

@[simp] theorem writeScore_mem (s : State) :
    (writeScore s).mem = s.mem := rfl

@[simp] theorem writeScore_enc (s : State) :
    (writeScore s).enc = s.enc := rfl

@[simp] theorem writeScore_seq (s : State) :
    (writeScore s).seq = s.seq := rfl

@[simp] theorem writeScore_slots (s : State) :
    (writeScore s).slots = s.slots := rfl

@[simp] theorem writeScore_uops (s : State) :
    (writeScore s).uops = s.uops := rfl

@[simp] theorem writeScore_port (s : State) :
    (writeScore s).port = s.port := rfl

@[simp] theorem writeScore_host (s : State) :
    (writeScore s).host = s.host := rfl

@[simp] theorem writeScore_seen (s : State) :
    (writeScore s).seen = s.seen := rfl

@[simp] theorem writeScore_draws (s : State) :
    (writeScore s).draws = s.draws := rfl

/-! ### `gotoSub` -/

@[simp] theorem gotoSub_sa (l : LoopSub) (s : State) :
    (gotoSub l s).sa = s.sa := rfl

@[simp] theorem gotoSub_sb (l : LoopSub) (s : State) :
    (gotoSub l s).sb = s.sb := rfl

@[simp] theorem gotoSub_status (l : LoopSub) (s : State) :
    (gotoSub l s).status = s.status := rfl

@[simp] theorem gotoSub_iter (l : LoopSub) (s : State) :
    (gotoSub l s).iter = s.iter := rfl

@[simp] theorem gotoSub_skip (l : LoopSub) (s : State) :
    (gotoSub l s).skip = s.skip := rfl

@[simp] theorem gotoSub_score (l : LoopSub) (s : State) :
    (gotoSub l s).score = s.score := rfl

@[simp] theorem gotoSub_mem (l : LoopSub) (s : State) :
    (gotoSub l s).mem = s.mem := rfl

@[simp] theorem gotoSub_enc (l : LoopSub) (s : State) :
    (gotoSub l s).enc = s.enc := rfl

@[simp] theorem gotoSub_seq (l : LoopSub) (s : State) :
    (gotoSub l s).seq = { s.seq with lsub := l } := rfl

@[simp] theorem gotoSub_slots (l : LoopSub) (s : State) :
    (gotoSub l s).slots = s.slots := rfl

@[simp] theorem gotoSub_uops (l : LoopSub) (s : State) :
    (gotoSub l s).uops = s.uops := rfl

@[simp] theorem gotoSub_port (l : LoopSub) (s : State) :
    (gotoSub l s).port = s.port := rfl

@[simp] theorem gotoSub_host (l : LoopSub) (s : State) :
    (gotoSub l s).host = s.host := rfl

@[simp] theorem gotoSub_seen (l : LoopSub) (s : State) :
    (gotoSub l s).seen = s.seen := rfl

@[simp] theorem gotoSub_draws (l : LoopSub) (s : State) :
    (gotoSub l s).draws = s.draws := rfl

/-! ### `writePosition` -/

@[simp] theorem writePosition_sa (s : State) :
    (writePosition s).sa = s.sa := rfl

@[simp] theorem writePosition_sb (s : State) :
    (writePosition s).sb = s.sb := rfl

@[simp] theorem writePosition_status (s : State) :
    (writePosition s).status = s.status := rfl

@[simp] theorem writePosition_iter (s : State) :
    (writePosition s).iter = s.iter := rfl

@[simp] theorem writePosition_skip (s : State) :
    (writePosition s).skip = s.skip := rfl

@[simp] theorem writePosition_score (s : State) :
    (writePosition s).score = s.score := rfl

@[simp] theorem writePosition_mem (s : State) :
    (writePosition s).mem = memWrite s.mem (digitAddr s.enc.esel (s.enc.epos.setWidth 8)) (tc8 (recode s.enc).digit) := rfl

@[simp] theorem writePosition_enc (s : State) :
    (writePosition s).enc = shiftEncoder s.enc := rfl

@[simp] theorem writePosition_seq (s : State) :
    (writePosition s).seq = s.seq := rfl

@[simp] theorem writePosition_slots (s : State) :
    (writePosition s).slots = s.slots := rfl

@[simp] theorem writePosition_uops (s : State) :
    (writePosition s).uops = s.uops := rfl

@[simp] theorem writePosition_port (s : State) :
    (writePosition s).port = s.port := rfl

@[simp] theorem writePosition_host (s : State) :
    (writePosition s).host = s.host := rfl

@[simp] theorem writePosition_seen (s : State) :
    (writePosition s).seen = s.seen := rfl

@[simp] theorem writePosition_draws (s : State) :
    (writePosition s).draws = s.draws := rfl

/-! ### `hostRead` -/

@[simp] theorem hostRead_sa (a : HostAddr) (s : State) :
    (hostRead a s).sa = s.sa := rfl

@[simp] theorem hostRead_sb (a : HostAddr) (s : State) :
    (hostRead a s).sb = s.sb := rfl

@[simp] theorem hostRead_status (a : HostAddr) (s : State) :
    (hostRead a s).status = s.status := rfl

@[simp] theorem hostRead_iter (a : HostAddr) (s : State) :
    (hostRead a s).iter = s.iter := rfl

@[simp] theorem hostRead_skip (a : HostAddr) (s : State) :
    (hostRead a s).skip = s.skip := rfl

@[simp] theorem hostRead_score (a : HostAddr) (s : State) :
    (hostRead a s).score = s.score := rfl

@[simp] theorem hostRead_mem (a : HostAddr) (s : State) :
    (hostRead a s).mem = s.mem := rfl

@[simp] theorem hostRead_enc (a : HostAddr) (s : State) :
    (hostRead a s).enc = s.enc := rfl

@[simp] theorem hostRead_seq (a : HostAddr) (s : State) :
    (hostRead a s).seq = s.seq := rfl

@[simp] theorem hostRead_slots (a : HostAddr) (s : State) :
    (hostRead a s).slots = s.slots := rfl

@[simp] theorem hostRead_uops (a : HostAddr) (s : State) :
    (hostRead a s).uops = s.uops := rfl

@[simp] theorem hostRead_port (a : HostAddr) (s : State) :
    (hostRead a s).port = s.port := rfl

@[simp] theorem hostRead_host (a : HostAddr) (s : State) :
    (hostRead a s).host = s.host := rfl

@[simp] theorem hostRead_seen (a : HostAddr) (s : State) :
    (hostRead a s).seen = s.seen ++ [.word a (hostReadWord a s)] := rfl

@[simp] theorem hostRead_draws (a : HostAddr) (s : State) :
    (hostRead a s).draws = s.draws + 1 := rfl

/-! ### `applyReset` -/

@[simp] theorem applyReset_sa (s : State) : (applyReset s).sa = State.reset.sa := rfl

@[simp] theorem applyReset_sb (s : State) : (applyReset s).sb = State.reset.sb := rfl

@[simp] theorem applyReset_status (s : State) : (applyReset s).status = State.reset.status := rfl

@[simp] theorem applyReset_iter (s : State) : (applyReset s).iter = State.reset.iter := rfl

@[simp] theorem applyReset_skip (s : State) : (applyReset s).skip = State.reset.skip := rfl

@[simp] theorem applyReset_score (s : State) : (applyReset s).score = State.reset.score := rfl

@[simp] theorem applyReset_mem (s : State) : (applyReset s).mem = State.reset.mem := rfl

@[simp] theorem applyReset_enc (s : State) : (applyReset s).enc = State.reset.enc := rfl

@[simp] theorem applyReset_seq (s : State) : (applyReset s).seq = State.reset.seq := rfl

@[simp] theorem applyReset_slots (s : State) : (applyReset s).slots = State.reset.slots := rfl

@[simp] theorem applyReset_uops (s : State) : (applyReset s).uops = State.reset.uops := rfl

@[simp] theorem applyReset_port (s : State) : (applyReset s).port = State.reset.port := rfl

@[simp] theorem applyReset_host (s : State) : (applyReset s).host = s.host := rfl

@[simp] theorem applyReset_seen (s : State) : (applyReset s).seen = s.seen := rfl

@[simp] theorem applyReset_draws (s : State) : (applyReset s).draws = s.draws := rfl

end Sys2Proof.Machine
end

