-- ==== Sys2Proof/Laws/Unit.lean ====
section
/-! SUPPORT. What each shared operation of the step can do, once: performing a micro-operation, the point unit, the unit's step in
each phase, and the composition of runs. -/

namespace Sys2Proof.Machine

/-- Performing a micro-operation answers a next state exactly when it is one the unit can issue and its sources hold values; then only
the slots and `UOPS` change (43_point_ops R212). -/
theorem performUop_eq_next {i : Instr} {f : Option SlotFile} {s t : State} :
    performUop i f s = .next t ↔
      i.wellFormed = true ∧ ∃ g, f = some g ∧ t = { s with slots := g, uops := s.uops ++ [encode i] } := by
  cases f <;> cases h : i.wellFormed <;> simp [performUop, uopLegal, h, eq_comm]

/-- Performing a legal micro-operation whose sources hold values. -/
theorem performUop_some {i : Instr} (h : i.wellFormed = true) (g : SlotFile) (s : State) :
    performUop i (some g) s = .next { s with slots := g, uops := s.uops ++ [encode i] } := by
  simp [performUop, uopLegal, h]

/-- The point unit performs the micro-operation whose word it is given. -/
theorem pointUnit_encode {i : Instr} (h : i.isCommand = false) (s : State) :
    pointUnit (encode i) s = exec i s := by
  cases i <;> simp [Instr.isCommand] at h <;>
    simp [pointUnit, encode, decodeUop_uopWord, uopOfCode]

/-- A rule that issues a micro-operation performs it on the state with the rule's other writes. -/
theorem issueRule_some {i : Instr} (h : i.isCommand = false) (t : State) :
    issueRule (some i, t) = exec i t := pointUnit_encode h t

@[simp] theorem issueRule_none (t : State) : issueRule (none, t) = .next t := rfl

/-! ### The unit's step, phase by phase -/

/-- An idle unit keeps all its state (60_exceptions R251). -/
theorem unitStep_idle {s : State} (h : s.status.busy = false) : unitStep s = .next s := by
  simp [unitStep, h]

/-- In the three encoding phases the unit's step is an encoder step (40_naf_encoder R125). -/
theorem unitStep_encoding {s : State} (hb : s.status.busy = true) (h : Encoding s) :
    unitStep s = .next (encoderStep s) := by
  rcases h with h | h | h <;> simp [unitStep, hb, h]

theorem unitStep_mTbl {s : State} (h : AtPhase s .mTbl) : unitStep s = issueRule (tableRule s) := by
  simp [unitStep, h.1, h.2]

theorem unitStep_mScan {s : State} (h : AtPhase s .mScan) : unitStep s = issueRule (scanRule s) := by
  simp [unitStep, h.1, h.2]

theorem unitStep_mInit {s : State} (h : AtPhase s .mInit) : unitStep s = issueRule (initRule s) := by
  simp [unitStep, h.1, h.2]

theorem unitStep_mLoop {s : State} (h : AtPhase s .mLoop) : unitStep s = issueRule (loopRule s) := by
  simp [unitStep, h.1, h.2]

theorem unitStep_mOut {s : State} (h : AtPhase s .mOut) : unitStep s = issueRule (outRule s) := by
  simp [unitStep, h.1, h.2]

/-! ### Runs -/

@[simp] theorem unitRun_zero (s : State) : unitRun 0 s = .next s := rfl

theorem unitRun_succ {s t : State} (h : unitStep s = .next t) (n : Nat) :
    unitRun (n + 1) s = unitRun n t := by simp [unitRun, h]

theorem unitRun_one {s t : State} (h : unitStep s = .next t) : unitRun 1 s = .next t := by simp [unitRun, h]

theorem unitRun_two {s u t : State} (h₁ : unitStep s = .next u) (h₂ : unitStep u = .next t) :
    unitRun 2 s = .next t := by simp [unitRun, h₁, h₂]

/-- Two runs one after the other are one run. -/
theorem unitRun_add {m : Nat} {s t : State} (h : unitRun m s = .next t) (n : Nat) :
    unitRun (m + n) s = unitRun n t := by
  induction m generalizing s with
  | zero => simp at h; simp [h]
  | succ m ih =>
    rw [Nat.succ_add]
    cases hs : unitStep s with
    | next u => rw [unitRun_succ hs] at h ⊢; exact ih h
    | fault r => simp [unitRun, hs] at h
    | refused r => simp [unitRun, hs] at h

end Sys2Proof.Machine
end

