-- ==== Sys2Proof/Laws/Uop.lean ====
section
/-! SUPPORT. What a micro-operation can do, once for all seven: the slot operations, and the inversion of `exec` on a
micro-operation. -/

namespace Sys2Proof.Machine

@[simp] theorem putPI_ain (f : SlotFile) (x : Slot) (p : PI) : (putPI f x p).ain = f.ain := by cases x <;> rfl

@[simp] theorem putPS_ain (f : SlotFile) (x : Slot) (p : PS) : (putPS f x p).ain = f.ain := by cases x <;> rfl

@[simp] theorem putPX_ain (f : SlotFile) (x : Slot) (p : PX) : (putPX f x p).ain = f.ain := by cases x <;> rfl

theorem putPD_ain {f : SlotFile} {x : Slot} (p : PD) (h : x ≠ .ain) : (putPD f x p).ain = f.ain := by
  cases x <;> simp_all [putPD]

/-- The read of a slot in each form. -/
def sameSlot (f g : SlotFile) (x : Slot) : Prop :=
  slotPD f x = slotPD g x ∧ slotPI f x = slotPI g x ∧ slotPS f x = slotPS g x ∧ slotPX f x = slotPX g x

/-- Writing a slot of form `PD` leaves every other slot alone. -/
theorem putPD_other (f : SlotFile) {x y : Slot} (p : PD) (h : y ≠ x) : sameSlot (putPD f x p) f y := by
  cases x <;> cases y <;> simp_all [sameSlot, putPD, slotPD, slotPI, slotPS, slotPX]

/-- Writing a slot of form `PI` leaves every other slot alone. -/
theorem putPI_other (f : SlotFile) {x y : Slot} (p : PI) (h : y ≠ x) : sameSlot (putPI f x p) f y := by
  cases x <;> cases y <;> simp_all [sameSlot, putPI, slotPD, slotPI, slotPS, slotPX]

/-- Writing a slot of form `PX` leaves every other slot alone. -/
theorem putPX_other (f : SlotFile) {x y : Slot} (p : PX) (h : y ≠ x) : sameSlot (putPX f x p) f y := by
  cases x <;> cases y <;> simp_all [sameSlot, putPX, slotPD, slotPI, slotPS, slotPX]

/-- Writing a slot of form `PS` leaves every other slot alone. -/
theorem putPS_other (f : SlotFile) {x y : Slot} (p : PS) (h : y ≠ x) : sameSlot (putPS f x p) f y := by
  cases x <;> cases y <;> simp_all [sameSlot, putPS, slotPD, slotPI, slotPS, slotPX]
  case ta.ta i j =>
    have : i.val ≠ j.val := fun e => h (Fin.ext e.symm)
    simp [this]

/-- The destination field of a micro-operation. -/
def uopDst : Instr → Slot
  | .ident dst _ _ => dst
  | .dbl dst _ _ => dst
  | .add dst _ _ => dst
  | .sub dst _ _ => dst
  | .todbl dst _ _ => dst
  | .tosto dst _ _ => dst
  | .toext dst _ _ => dst
  | .enc _ _ => .none
  | .mul => .none
  | .muls => .none

theorem uopDst_ne_ain {i : Instr} (h : i.wellFormed = true) : uopDst i ≠ .ain := by
  rintro h'
  cases i <;> simp only [uopDst] at h' <;> try subst h'
  all_goals first | simp [Instr.wellFormed, addOperands, subOperands, tostoOperands] at h; done | simp at h'

/-- Everything a micro-operation that answers a next state does (43_point_ops R212): it is one the unit can issue, the word is
appended, no slot but the destination changes, `AIN` is kept, and nothing else changes. -/
theorem exec_uop_next {i : Instr} {s t : State} (hi : i.isCommand = false) (h : exec i s = .next t) :
    i.wellFormed = true ∧ ∃ g, t = { s with slots := g, uops := s.uops ++ [encode i] } ∧
      (∀ y, y ≠ uopDst i → sameSlot g s.slots y) ∧ g.ain = s.slots.ain := by
  cases i <;> simp only [Instr.isCommand, Bool.true_eq_false] at hi
  all_goals
    simp only [exec, execIdent, execDbl, execAdd, execSub, execTodbl, execTosto, execToext, performUop_eq_next,
      Option.some.injEq, Option.map_eq_some_iff, Option.bind_eq_some_iff] at h
    have hne := uopDst_ne_ain h.1
  case ident =>
    obtain ⟨hw, g, rfl, rfl⟩ := h
    exact ⟨hw, _, rfl, fun y hy => putPD_other _ _ hy, putPD_ain _ hne⟩
  case dbl =>
    obtain ⟨hw, g, ⟨p, -, rfl⟩, rfl⟩ := h
    exact ⟨hw, _, rfl, fun y hy => putPD_other _ _ hy, putPD_ain _ hne⟩
  case add =>
    obtain ⟨hw, g, ⟨p, -, t, -, rfl⟩, rfl⟩ := h
    exact ⟨hw, _, rfl, fun y hy => putPI_other _ _ hy, putPI_ain _ _ _⟩
  case sub =>
    obtain ⟨hw, g, ⟨p, -, t, -, rfl⟩, rfl⟩ := h
    exact ⟨hw, _, rfl, fun y hy => putPI_other _ _ hy, putPI_ain _ _ _⟩
  case todbl =>
    obtain ⟨hw, g, ⟨p, -, rfl⟩, rfl⟩ := h
    exact ⟨hw, _, rfl, fun y hy => putPD_other _ _ hy, putPD_ain _ hne⟩
  case tosto =>
    obtain ⟨hw, g, ⟨p, -, rfl⟩, rfl⟩ := h
    exact ⟨hw, _, rfl, fun y hy => putPS_other _ _ hy, putPS_ain _ _ _⟩
  case toext =>
    obtain ⟨hw, g, ⟨p, -, rfl⟩, rfl⟩ := h
    exact ⟨hw, _, rfl, fun y hy => putPX_other _ _ hy, putPX_ain _ _ _⟩

/-- A sequencer step that answers a next state: the rule's own writes, then the micro-operation it issues, if any. -/
theorem issueRule_next {r : Option Instr × State} {t : State} (hi : ∀ i ∈ r.1, i.isCommand = false)
    (h : issueRule r = .next t) :
    (r.1 = none ∧ t = r.2) ∨
      ∃ i g, r.1 = some i ∧ i.wellFormed = true ∧ t = { r.2 with slots := g, uops := r.2.uops ++ [encode i] } ∧
        g.ain = r.2.slots.ain := by
  obtain ⟨_ | i, u⟩ := r
  · simp at h
    exact .inl ⟨rfl, h.symm⟩
  · rw [issueRule_some (hi i rfl)] at h
    obtain ⟨hw, g, rfl, -, ha⟩ := exec_uop_next (hi i rfl) h
    exact .inr ⟨i, g, rfl, hw, rfl, ha⟩

/-- The rules of the sequencer's phases, one of which fires in each busy state outside an encoding (42_multiplier R193). -/
def IsRule (s : State) (r : Option Instr × State) : Prop :=
  s.seq.q = .mTbl ∧ r = tableRule s ∨ s.seq.q = .mScan ∧ r = scanRule s ∨ s.seq.q = .mInit ∧ r = initRule s ∨
    s.seq.q = .mLoop ∧ r = loopRule s ∨ s.seq.q = .mOut ∧ r = outRule s

theorem tableUop_isUop (n : Nat) : (tableUop n).isCommand = false := by
  unfold tableUop
  split_ifs <;> rfl

theorem combineRule_isUop {sel : Sel} {c n : LoopSub} {s : State} : ∀ i ∈ (combineRule sel c n s).1, i.isCommand = false := by
  unfold combineRule
  split <;> rintro i h <;> simp at h <;> subst h <;> rfl

/-- The sequencer issues micro-operations only. -/
theorem isRule_isUop {s : State} {r : Option Instr × State} (h : IsRule s r) : ∀ i ∈ r.1, i.isCommand = false := by
  rcases h with ⟨-, rfl⟩ | ⟨-, rfl⟩ | ⟨-, rfl⟩ | ⟨-, rfl⟩ | ⟨-, rfl⟩
  · rintro i h
    simp only [tableRule, Option.mem_def, Option.some.injEq] at h
    exact h ▸ tableUop_isUop _
  · rintro i h
    simp [scanRule] at h
  · rintro i h
    simp only [initRule, Option.mem_def, Option.some.injEq] at h
    exact h ▸ rfl
  · unfold loopRule
    split
    · rintro i h
      simp only [doubleRule, Option.mem_def, Option.some.injEq] at h
      exact h ▸ rfl
    · exact combineRule_isUop
    · rintro i h
      simp only [convertRule, Option.mem_def, Option.some.injEq] at h
      exact h ▸ rfl
    · exact combineRule_isUop
    · rintro i h
      simp only [convertRule, Option.mem_def, Option.some.injEq] at h
      exact h ▸ rfl
    · rintro i h
      simp [nextRule] at h
  · rintro i h
    simp only [outRule, Option.mem_def, Option.some.injEq] at h
    exact h ▸ rfl

/-- Everything a step of the unit can be (42_multiplier R172, R193): none, an encoder step, or a rule of the sequencer. -/
theorem unitStep_next {s t : State} (h : unitStep s = .next t) :
    t = s ∧ (s.status.busy = false ∨ s.seq.q = .idle) ∨
      s.status.busy = true ∧ Encoding s ∧ t = encoderStep s ∨
      s.status.busy = true ∧ ∃ r, IsRule s r ∧ issueRule r = .next t := by
  unfold unitStep at h
  split at h
  case isFalse hb => exact .inl ⟨by simpa using h.symm, .inl (by simpa using hb)⟩
  case isTrue hb =>
    split at h <;> rename_i hq
    · exact .inl ⟨by simpa using h.symm, .inr hq⟩
    · exact .inr (.inl ⟨hb, .inl hq, by simpa using h.symm⟩)
    · exact .inr (.inl ⟨hb, .inr (.inl hq), by simpa using h.symm⟩)
    · exact .inr (.inl ⟨hb, .inr (.inr hq), by simpa using h.symm⟩)
    · exact .inr (.inr ⟨hb, _, .inl ⟨hq, rfl⟩, h⟩)
    · exact .inr (.inr ⟨hb, _, .inr (.inl ⟨hq, rfl⟩), h⟩)
    · exact .inr (.inr ⟨hb, _, .inr (.inr (.inl ⟨hq, rfl⟩)), h⟩)
    · exact .inr (.inr ⟨hb, _, .inr (.inr (.inr (.inl ⟨hq, rfl⟩))), h⟩)
    · exact .inr (.inr ⟨hb, _, .inr (.inr (.inr (.inr ⟨hq, rfl⟩))), h⟩)

end Sys2Proof.Machine
end

