-- ==== Sys2Proof/Laws/Encoder.lean ====
section
/-! SUPPORT. What one encoder step can do (spec/40_naf_encoder.md R126 to R128): the digit's pattern, the zero run, and the fields
a step keeps. -/

namespace Sys2Proof.Machine

theorem legalWidth_iff (w : BitVec 4) : legalWidth w = true ↔ 2 ≤ w.toNat ∧ w.toNat ≤ 8 := by
  simp [legalWidth]

/-- An odd integer has an odd pattern. -/
theorem digitPattern_of_odd {d : Int} (h : d % 2 = 1) : digitPattern (tc8 d) = true := by
  have h2 : (tc8 d).toNat % 2 = 1 := by
    simp only [tc8, BitVec.toNat_ofInt]
    omega
  simp only [digitPattern, Bool.or_eq_true]
  right
  rw [← BitVec.getLsbD_eq_getElem, BitVec.getLsbD, Nat.testBit_zero]
  simpa using h2

/-- The digit of a position with a legal width is 0 or odd (R126). -/
theorem recode_pattern {e : EncState} (h : legalWidth e.ew = true) : digitPattern (tc8 (recode e).digit) = true := by
  obtain ⟨lo, -⟩ := (legalWidth_iff _).1 h
  unfold recode
  split_ifs with h1 h2 h3
  · rfl
  · rfl
  · refine digitPattern_of_odd ?_
    have : (2 : Int) ^ e.ew.toNat = 2 * 2 ^ (e.ew.toNat - 1) := by
      rw [← pow_succ']
      congr 1
      omega
    simp only [this]
    omega
  · exact digitPattern_of_odd (by simp only; omega)

/-- The zero run stays shorter than the width (R126). -/
theorem recode_zeros {e : EncState} (h : legalWidth e.ew = true) (hz : e.ez.toNat < e.ew.toNat) :
    (recode e).zeros.toNat < e.ew.toNat := by
  obtain ⟨lo, hi⟩ := (legalWidth_iff _).1 h
  have h8 : (e.ew.toNat - 1) % 8 = e.ew.toNat - 1 := by omega
  unfold recode
  split_ifs with h1 h2 h3
  · have : e.ez.toNat ≠ 0 := fun h0 => h1 (BitVec.eq_of_toNat_eq (by simpa using h0))
    have h1' : (e.ez - 1).toNat = e.ez.toNat - 1 := by
      have := e.ez.isLt
      rw [BitVec.toNat_sub, show (1 : BitVec 3).toNat = 1 from rfl]
      omega
    simp only [h1']
    omega
  · show 0 < e.ew.toNat
    omega
  · simp only [BitVec.toNat_ofNat]
    omega
  · simp only [BitVec.toNat_ofNat]
    omega

/-- The fields an encoder step keeps, in every phase (R127, R128). -/
theorem encoderStep_keeps (s : State) :
    (encoderStep s).sa = s.sa ∧ (encoderStep s).sb = s.sb ∧ (encoderStep s).slots = s.slots ∧
    (encoderStep s).uops = s.uops ∧ (encoderStep s).host = s.host ∧ (encoderStep s).seen = s.seen ∧
    (encoderStep s).draws = s.draws ∧ (encoderStep s).port = s.port ∧ (encoderStep s).iter = s.iter ∧
    (encoderStep s).skip = s.skip ∧ (encoderStep s).score = s.score ∧ (encoderStep s).mem = (writePosition s).mem := by
  unfold encoderStep
  split_ifs
  · unfold endEncoding
    split <;> simp
  · simp

end Sys2Proof.Machine
end

