-- ==== Sys2Proof/Laws/Naf.lean ====
section
/-! SUPPORT. The datapath and the reference function agree (spec/40_naf_encoder.md R129): one encoder step against one step of the
recurrence of R122, and a run of the encoder against the digit sequence. -/

namespace Sys2Proof.Machine

/-- The invariant of R129: the residual `k` is what the shift register, the carry and the zero run stand for. -/
def Represents (e : EncState) (k : Nat) : Prop :=
  k = (e.ex.toNat / 2 ^ e.ez.toNat + e.ec.toNat) * 2 ^ e.ez.toNat

/-- The recurrence of R122, one step. -/
theorem nafResidual_succ (s w i : Nat) :
    nafResidual s w (i + 1) = (((nafResidual s w i : Int) - nafDigit w (nafResidual s w i)) / 2).toNat := rfl

theorem nafDigit_even {w k : Nat} (h : k % 2 = 0) : nafDigit w k = 0 := by simp [nafDigit, h]

theorem nafDigit_odd {w k : Nat} (h : k % 2 = 1) :
    nafDigit w k = if 2 ^ (w - 1) ≤ k % 2 ^ w then ((k % 2 ^ w : Nat) : Int) - 2 ^ w else ((k % 2 ^ w : Nat) : Int) := by
  have := Nat.two_pow_pos (w - 1)
  simp only [nafDigit, h, if_true]
  congr 1
  exact propext (by omega)

theorem testBit_top {x w : Nat} (hw : 1 ≤ w) (hx : x < 2 ^ w) : x.testBit (w - 1) = decide (2 ^ (w - 1) ≤ x) := by
  have h2 : 2 ^ w = 2 * 2 ^ (w - 1) := by
    rw [← pow_succ']
    congr 1
    omega
  rw [Nat.testBit_eq_decide_div_mod_eq]
  congr 1
  have hp := Nat.two_pow_pos (w - 1)
  apply propext
  constructor
  · intro h
    by_contra hc
    rw [Nat.div_eq_of_lt (by omega)] at h
    simp at h
  · intro h
    have : x / 2 ^ (w - 1) = 1 := by
      rw [Nat.div_eq_iff hp]
      omega
    simp [this]

theorem bool_toNat_le (b : Bool) : b.toNat ≤ 1 := by cases b <;> decide

/-- One encoder step is one step of the recurrence (R129). -/
theorem recode_represents {e : EncState} {k w : Nat} (hw : e.ew.toNat = w) (lo : 2 ≤ w) (hi : w ≤ 8)
    (hr : Represents e k) :
    (recode e).digit = nafDigit w k ∧
      Represents (shiftEncoder e) (((k : Int) - nafDigit w k) / 2).toNat := by
  have hc := bool_toNat_le e.ec
  unfold Represents at hr
  have hsh : (shiftEncoder e).ex.toNat = e.ex.toNat / 2 := by
    simp [shiftEncoder, BitVec.toNat_ushiftRight, Nat.shiftRight_eq_div_pow]
  by_cases hz : e.ez = 0
  · have hz0 : e.ez.toNat = 0 := by rw [hz]; rfl
    simp only [hz0, pow_zero, Nat.div_one, Nat.mul_one] at hr
    have h2 : 2 ^ w = 2 * 2 ^ (w - 1) := by
      rw [← pow_succ']
      congr 1
      omega
    have hp := Nat.two_pow_pos (w - 1)
    have hdvd : windowValue e % 2 = k % 2 := by
      simp only [windowValue, hw, hr]
      have : e.ex.toNat % 2 ^ w % 2 = e.ex.toNat % 2 := Nat.mod_mod_of_dvd _ ⟨2 ^ (w - 1), h2⟩
      omega
    by_cases hev : windowValue e % 2 = 0
    · have hd : (recode e).digit = 0 := by simp [recode, hz, hev]
      have hk : k % 2 = 0 := by omega
      refine ⟨by rw [hd, nafDigit_even hk], ?_⟩
      rw [nafDigit_even hk]
      unfold Represents
      have h1 : (shiftEncoder e).ez = 0 := by simp [shiftEncoder, recode, hz, hev]
      have h3 : (shiftEncoder e).ec = e.ec := by simp [shiftEncoder, recode, hz, hev]
      rw [h1, h3, hsh, show (0 : BitVec 3).toNat = 0 from rfl]
      simp only [pow_zero, Nat.div_one, Nat.mul_one]
      omega
    · have hk : k % 2 = 1 := by omega
      have hlt : windowValue e < 2 ^ w := by
        have := Nat.mod_lt e.ex.toNat (Nat.two_pow_pos w)
        have h3 : windowValue e = e.ec.toNat + e.ex.toNat % 2 ^ w := by simp only [windowValue, hw]
        omega
      have hwin : windowValue e = k % 2 ^ w := by
        rw [← Nat.mod_eq_of_lt hlt, windowValue, hw, hr, Nat.add_mod_mod, Nat.add_comm]
      have htop := testBit_top (w := w) (by omega) hlt
      have hzr : ((shiftEncoder e).ez).toNat = w - 1 := by
        have : (w - 1) % 8 = w - 1 := by omega
        simp only [shiftEncoder, recode, hz, ne_eq, not_true_eq_false, if_false, hev]
        split_ifs <;> simp [hw, this]
      have hdm : e.ex.toNat / 2 / 2 ^ (w - 1) = e.ex.toNat / 2 ^ w := by rw [Nat.div_div_eq_div_mul, ← h2]
      have hsum := Nat.div_add_mod e.ex.toNat (2 ^ w)
      have hwv : windowValue e = e.ec.toNat + e.ex.toNat % 2 ^ w := by simp only [windowValue, hw]
      by_cases ht : 2 ^ (w - 1) ≤ windowValue e
      · have hb : (windowValue e).testBit (w - 1) = true := by simp [htop, ht]
        have hd : (recode e).digit = (windowValue e : Int) - 2 ^ w := by simp [recode, hz, hev, hw, hb]
        have hn : nafDigit w k = (windowValue e : Int) - 2 ^ w := by
          rw [nafDigit_odd hk, ← hwin, if_pos ht]
        refine ⟨by rw [hd, hn], ?_⟩
        have hec : (shiftEncoder e).ec = true := by simp [shiftEncoder, recode, hz, hev, hw, hb]
        unfold Represents
        rw [hzr, hec, hsh, hdm, hn]
        simp only [Bool.toNat_true]
        have : (k : Int) - ((windowValue e : Int) - 2 ^ w) = 2 * (((e.ex.toNat / 2 ^ w + 1) * 2 ^ (w - 1) : Nat) : Int) := by
          have h4 : k + 2 ^ w = windowValue e + 2 * ((e.ex.toNat / 2 ^ w + 1) * 2 ^ (w - 1)) := by
            have h5 : 2 * ((e.ex.toNat / 2 ^ w + 1) * 2 ^ (w - 1)) = 2 ^ w * (e.ex.toNat / 2 ^ w) + 2 ^ w := by
              rw [← Nat.mul_assoc, Nat.mul_comm 2, Nat.mul_assoc, ← h2]
              ring
            omega
          have h6 : ((2 ^ w : Nat) : Int) = (2 : Int) ^ w := by push_cast; rfl
          omega
        rw [this, Int.mul_ediv_cancel_left _ (by norm_num), Int.toNat_natCast]
      · have hb : (windowValue e).testBit (w - 1) = false := by simp [htop, ht]
        have hd : (recode e).digit = (windowValue e : Int) := by simp [recode, hz, hev, hw, hb]
        have hn : nafDigit w k = (windowValue e : Int) := by
          rw [nafDigit_odd hk, ← hwin, if_neg ht]
        refine ⟨by rw [hd, hn], ?_⟩
        have hec : (shiftEncoder e).ec = false := by simp [shiftEncoder, recode, hz, hev, hw, hb]
        unfold Represents
        rw [hzr, hec, hsh, hdm, hn]
        simp only [Bool.toNat_false, Nat.add_zero]
        have : (k : Int) - (windowValue e : Int) = 2 * ((e.ex.toNat / 2 ^ w * 2 ^ (w - 1) : Nat) : Int) := by
          have h5 : 2 * (e.ex.toNat / 2 ^ w * 2 ^ (w - 1)) = 2 ^ w * (e.ex.toNat / 2 ^ w) := by
            rw [← Nat.mul_assoc, Nat.mul_comm 2, Nat.mul_assoc, ← h2]
            ring
          omega
        rw [this, Int.mul_ediv_cancel_left _ (by norm_num), Int.toNat_natCast]
  · have hz0 : e.ez.toNat ≠ 0 := fun h => hz (BitVec.eq_of_toNat_eq (by simpa using h))
    have hz1 : (e.ez - 1).toNat = e.ez.toNat - 1 := by
      have := e.ez.isLt
      rw [BitVec.toNat_sub, show (1 : BitVec 3).toNat = 1 from rfl]
      omega
    obtain ⟨z, hzz⟩ : ∃ z, e.ez.toNat = z + 1 := ⟨e.ez.toNat - 1, by omega⟩
    have hk : k = 2 * ((e.ex.toNat / 2 ^ (z + 1) + e.ec.toNat) * 2 ^ z) := by
      rw [hr, hzz, pow_succ]
      ring
    have hev : k % 2 = 0 := by omega
    have hrec : recode e = { digit := 0, carry := e.ec, zeros := e.ez - 1 } := if_pos hz
    refine ⟨by rw [hrec, nafDigit_even hev], ?_⟩
    rw [nafDigit_even hev]
    unfold Represents
    have h1 : (shiftEncoder e).ez = e.ez - 1 := by rw [shiftEncoder, hrec]
    have h3 : (shiftEncoder e).ec = e.ec := by rw [shiftEncoder, hrec]
    rw [h1, h3, hsh, hz1, hzz, Nat.add_sub_cancel, Nat.div_div_eq_div_mul, ← pow_succ', hk]
    omega

/-- Starting an encoding represents the scalar (R124, R129). -/
theorem represents_start (sel : Sel) (w : BitVec 4) (s : State) :
    Represents (startEncoding sel w s).enc (scalarOf sel s).toNat := by
  simp [Represents]

/-! ### The encoder's run -/

/-- The encoder runs at position `p` of the digits of `v` with width `w` (R125, R129). -/
structure EncAt (s : State) (v w p : Nat) : Prop where
  busy : s.status.busy = true
  encoding : Encoding s
  width : s.enc.ew.toNat = w
  pos : s.enc.epos.toNat = p
  rep : Represents s.enc (nafResidual v w p)

/-- One position: the digit is written, the registers move on, and nothing else changes (R126, R127). -/
theorem writePosition_at {s : State} {v w p : Nat} (h : EncAt s v w p) (lo : 2 ≤ w) (hi : w ≤ 8) (hp : p < 256) :
    writePosition s = { s with
      mem := memWrite s.mem (digitAddr s.enc.esel (BitVec.ofNat 8 p)) (tc8 (naf v w p)), enc := shiftEncoder s.enc } ∧
    EncAt (writePosition s) v w (p + 1) := by
  obtain ⟨hd, hr⟩ := recode_represents h.width lo hi h.rep
  have hpos : s.enc.epos.setWidth 8 = BitVec.ofNat 8 p := by
    apply BitVec.eq_of_toNat_eq
    simp [h.pos]
  constructor
  · simp only [writePosition, writeDigit, hd, hpos]
    rfl
  · refine ⟨h.busy, h.encoding, h.width, ?_, hr⟩
    show (s.enc.epos + 1).toNat = p + 1
    rw [BitVec.toNat_add, h.pos, show (1 : BitVec 9).toNat = 1 from rfl]
    omega

/-- A run of positions that does not reach the last one (R125 to R127). -/
theorem encoder_run {v w : Nat} (lo : 2 ≤ w) (hi : w ≤ 8) (n : Nat) :
    ∀ (p : Nat) (s : State), EncAt s v w p → p + n ≤ 255 →
    ∃ t, unitRun n s = .next t ∧ t = { s with mem := t.mem, enc := t.enc } ∧ t.enc.esel = s.enc.esel ∧
      EncAt t v w (p + n) ∧
      (∀ i : BitVec 8, p ≤ i.toNat → i.toNat < p + n →
        memRead t.mem (digitAddr s.enc.esel i) = some (tc8 (naf v w i.toNat))) ∧
      (∀ a, (∀ i : BitVec 8, p ≤ i.toNat → i.toNat < p + n → a ≠ digitAddr s.enc.esel i) →
        memRead t.mem a = memRead s.mem a) := by
  induction n with
  | zero =>
    intro p s h _
    exact ⟨s, rfl, rfl, rfl, h, fun i h1 h2 => by omega, fun _ _ => rfl⟩
  | succ n ih =>
    intro p s h hle
    have hlast : s.enc.epos ≠ 255 := fun e => by
      have := h.pos
      rw [e, show (255 : BitVec 9).toNat = 255 from rfl] at this
      omega
    have hstep : unitStep s = .next (writePosition s) := by
      rw [unitStep_encoding h.busy h.encoding, encoderStep, if_neg hlast]
    obtain ⟨hw, hat⟩ := writePosition_at h lo hi (by omega)
    obtain ⟨t, hrun, hkeep, hsel, hend, hin, hout⟩ := ih (p + 1) _ hat (by omega)
    have hs : (writePosition s).enc.esel = s.enc.esel := rfl
    have hm : (writePosition s).mem = memWrite s.mem (digitAddr s.enc.esel (BitVec.ofNat 8 p)) (tc8 (naf v w p)) := by
      rw [hw]
    have hself : (BitVec.ofNat 8 p).toNat = p := by
      rw [BitVec.toNat_ofNat]
      omega
    rw [hs] at hin hout
    refine ⟨t, by rw [unitRun_succ hstep, hrun], ?_, by rw [hsel, hs], by rwa [show p + (n + 1) = p + 1 + n by omega],
      fun i h1 h2 => ?_, fun a ha => ?_⟩
    · rw [hkeep, hw]
    · by_cases hip : i.toNat = p
      · have hi' : i = BitVec.ofNat 8 p := BitVec.eq_of_toNat_eq (by rw [hip, hself])
        rw [hout _ fun j h3 h4 e => ?_, hm, hi', memRead_memWrite_same, hself]
        have := (digitAddr_inj.1 e).2
        rw [← this, hip] at h3
        omega
      · exact hin i (by omega) (by omega)
    · rw [hout a fun i h3 h4 => ha i (by omega) (by omega), hm, memRead_memWrite_other]
      exact ha _ (by omega) (by omega)

/-- A whole encoding (R120, R128): the 256 digits are written, and the last step also ends the encoding. -/
theorem encoding_run {v w : Nat} (lo : 2 ≤ w) (hi : w ≤ 8) {s : State} (h : EncAt s v w 0) :
    ∃ u, unitRun 256 s = .next (endEncoding u) ∧ u = { s with mem := u.mem, enc := u.enc } ∧
      HoldsDigits s.enc.esel (naf v w) u ∧
      (∀ a, (∀ i : BitVec 8, a ≠ digitAddr s.enc.esel i) → memRead u.mem a = memRead s.mem a) := by
  obtain ⟨t, hrun, hkeep, hsel, hend, hin, hout⟩ := encoder_run lo hi 255 0 s h (by omega)
  have hlast : t.enc.epos = 255 := BitVec.eq_of_toNat_eq (by rw [hend.pos]; rfl)
  have hstep : unitStep t = .next (endEncoding (writePosition t)) := by
    rw [unitStep_encoding hend.busy hend.encoding, encoderStep, if_pos hlast]
  obtain ⟨hw, -⟩ := writePosition_at hend lo hi (by omega)
  have hm : (writePosition t).mem = memWrite t.mem (digitAddr s.enc.esel 255) (tc8 (naf v w 255)) := by
    rw [hw, hsel]
    rfl
  refine ⟨writePosition t, ?_, ?_, fun i => ?_, fun a ha => ?_⟩
  · rw [show 256 = 255 + 1 from rfl, unitRun_add hrun, unitRun_succ hstep, unitRun_zero]
  · rw [hw, hkeep]
  · rw [hm]
    by_cases hi' : i = 255
    · rw [hi', memRead_memWrite_same]
      rfl
    · have : i.toNat ≠ 255 := fun e => hi' (BitVec.eq_of_toNat_eq e)
      have := i.isLt
      rw [memRead_memWrite_other _ _ fun e => hi' (digitAddr_inj.1 e).2, hin i (by omega) (by omega)]
  · rw [hm, memRead_memWrite_other _ _ (ha _), hout a fun i _ _ => ha i]

end Sys2Proof.Machine
end

