-- ==== Sys2Proof/Laws/Loop.lean ====
section
/-! SUPPORT. What the sequencer's loop can do, sub-step by sub-step (spec/42_multiplier.md R179 to R190): the combination of one digit,
one iteration, and a run of the loop, against the closed form of R200. -/

namespace Sys2Proof.Machine

/-- A digit of the recurrence is 0, or odd and bounded (R122). -/
theorem naf_bound {w : Nat} (lo : 2 ≤ w) (v i : Nat) :
    naf v w i = 0 ∨ naf v w i % 2 = 1 ∧ (naf v w i).natAbs ≤ 2 ^ (w - 1) - 1 := by
  unfold naf
  generalize nafResidual v w i = k
  by_cases h : k % 2 = 1
  · right
    obtain ⟨u, rfl⟩ : ∃ u, w = u + 2 := ⟨w - 2, by omega⟩
    have h2 : 2 ^ (u + 2) = 2 * 2 ^ (u + 1) := by rw [pow_succ']
    have h3 : 2 ^ (u + 1) = 2 * 2 ^ u := by rw [pow_succ']
    have hlt := Nat.mod_lt k (Nat.two_pow_pos (u + 2))
    have hodd : k % 2 ^ (u + 2) % 2 = 1 := by rw [Nat.mod_mod_of_dvd _ ⟨2 ^ (u + 1), h2⟩, h]
    have hI : ((2 ^ (u + 2) : Nat) : Int) = (2 : Int) ^ (u + 2) := by push_cast; rfl
    rw [nafDigit_odd h, show u + 2 - 1 = u + 1 by omega, ← hI]
    split_ifs <;> constructor <;> omega
  · exact .inl (nafDigit_even (by omega))

/-! ### Stored digits -/

theorem tc8_toInt {d : Int} (h : d.natAbs ≤ 127) : (tc8 d).toInt = d := by
  rw [tc8, BitVec.toInt_ofInt]
  simp only [Int.bmod]
  omega

theorem tableIndex_tc8 {d : Int} (h : d.natAbs ≤ 127) : tableIndex (tc8 d) = d.natAbs / 2 := by
  rw [tableIndex, digitValue, tc8_toInt h]

/-- The sign class of a byte is the sign of the value it stands for (10_state R38). -/
theorem signClass_eq (v : Byte) :
    signClass v = if v.toInt = 0 then .zero else if v.toInt < 0 then .neg else .pos := by
  revert v
  decide

theorem slotOfNumber_ta {j : Nat} (h : j < 8) : slotOfNumber (BitVec.ofNat 7 (0x40 + j)) = .ta (Fin.ofNat 8 j) := by
  interval_cases j <;> rfl

theorem slotOfNumber_tb {j : Nat} (h : j < 64) : slotOfNumber (BitVec.ofNat 7 (0x00 + j)) = .tb (Fin.ofNat 64 j) := by
  interval_cases j <;> rfl

/-- The greatest size of a digit that the table of a scalar has an entry for: 15 for the table of A, 127 for the table of B (R151, R155). -/
def digitBound : Sel → Nat
  | .a => 15
  | .b => 127

/-- A digit of the table's range selects its entry (41_table_builder R156). -/
theorem tableSlot_tc8 {sel : Sel} {d : Int} (h : d.natAbs ≤ digitBound sel) :
    tableSlot sel (tc8 d) = refTable sel (d.natAbs / 2) := by
  cases sel
  · have h' : d.natAbs ≤ 15 := h
    rw [tableSlot, tableIndex_tc8 (by omega), slotOfNumber_ta (by omega), refTable]
  · have h' : d.natAbs ≤ 127 := h
    rw [tableSlot, tableIndex_tc8 h', slotOfNumber_tb (by omega), refTable]

/-! ### The combination of one digit -/

/-- The number of unit steps of a digit's combination: 1 for a skip, 2 for a combine and its conversion. -/
def combineSteps (d : Int) : Nat := if d = 0 then 1 else 2

/-- What the combination of the digit `d` leaves: the accumulator `q`, some `TMP`, the words of `CMB(d, T)` and the counted skip. -/
def combined (sel : Sel) (d : Int) (next : LoopSub) (q : PD) (x : Option PI) (s : State) : State :=
  { s with
    slots := { s.slots with acc := some q, tmp := x }
    uops := s.uops ++ (refCombine sel d).map encode
    skip := if s.seq.diag ∧ d = 0 then s.skip + 1 else s.skip
    seq := { s.seq with lsub := next } }

theorem odd_smul {G : Type} [AddCommGroup G] {d : Int} (h : d % 2 = 1) (P : G) :
    (0 < d → (2 * (d.natAbs / 2) + 1) • P = d • P) ∧ (d < 0 → (2 * (d.natAbs / 2) + 1) • P = - (d • P)) := by
  constructor
  · intro hd
    have : ((2 * (d.natAbs / 2) + 1 : Nat) : Int) = d := by omega
    rw [← natCast_zsmul, this]
  · intro hd
    have : ((2 * (d.natAbs / 2) + 1 : Nat) : Int) = -d := by omega
    rw [← natCast_zsmul, this, neg_zsmul]

/-- The conversion after a combine (R184, R188). -/
theorem convert_step {next : LoopSub} {s : State} {x : PI} (hs : AtPhase s .mLoop)
    (hl : loopRule s = convertRule next s) (hx : s.slots.tmp = some x) :
    unitStep s = .next { s with
      slots := { s.slots with acc := some (Config.toDbl x) }, uops := s.uops ++ [encode (.todbl .acc .tmp .none)]
      seq := { s.seq with lsub := next } } := by
  rw [unitStep_mLoop hs, hl, convertRule, issueRule_some (by rfl)]
  simp only [exec, execTodbl, gotoSub, slotPI, hx, Option.map_some]
  rw [performUop_some (by rfl)]
  simp [putPD, hx]

/-- The sub-steps `L_A` with `L_ACV`, or `L_B` with `L_BCV`, on the digit `d` (R181 to R188). -/
theorem combine_run {sel : Sel} {conv next : LoopSub} {d : Int} {s : State} {p : PD}
    (hs : AtPhase s .mLoop) (hl : loopRule s = combineRule sel conv next s)
    (hc : ∀ t, t.seq.lsub = conv → loopRule t = convertRule next t)
    (hd : digitByte sel s.seq.li s = tc8 d) (ho : d = 0 ∨ d % 2 = 1 ∧ d.natAbs ≤ digitBound sel)
    (hp : s.slots.acc = some p) (hT : d ≠ 0 → ∃ t, slotPS s.slots (refTable sel (d.natAbs / 2)) = some t) :
    ∃ q x, unitRun (combineSteps d) s = .next (combined sel d next q x s) ∧
      ∀ (G : Type) [AddCommGroup G] (c : PointContract G) (P : G),
        (∀ t, slotPS s.slots (refTable sel (d.natAbs / 2)) = some t → c.denPS t = (2 * (d.natAbs / 2) + 1) • P) →
        c.denPD q = c.denPD p + d • P := by
  have hb : d.natAbs ≤ digitBound sel := by
    rcases ho with rfl | ⟨-, h⟩
    · exact Nat.zero_le _
    · exact h
  have hb2 : d.natAbs ≤ 127 := hb.trans (by cases sel <;> decide)
  have hsign := signClass_eq (tc8 d)
  rw [tc8_toInt hb2] at hsign
  have hstep : unitStep s = issueRule (combineRule sel conv next s) := by rw [unitStep_mLoop hs, hl]
  rcases lt_trichotomy d 0 with hneg | rfl | hpos
  · obtain ⟨t, ht⟩ := hT (by omega)
    rw [if_neg (by omega), if_pos hneg] at hsign
    have hwf : (Instr.sub .tmp .acc (refTable sel (d.natAbs / 2))).wellFormed = true := by cases sel <;> rfl
    have h1 : unitStep s = .next { s with
        slots := { s.slots with tmp := some (Config.csub p t) }
        uops := s.uops ++ [encode (.sub .tmp .acc (refTable sel (d.natAbs / 2)))]
        seq := { s.seq with lsub := conv } } := by
      rw [hstep]
      simp only [combineRule, hd, hsign, tableSlot_tc8 hb]
      rw [issueRule_some (by rfl)]
      simp only [exec, execSub, gotoSub, slotPD, hp, ht, Option.map_some, Option.bind_some, performUop_some hwf, putPI]
    refine ⟨Config.toDbl (Config.csub p t), some (Config.csub p t), ?_, fun G _ c P hP => ?_⟩
    · rw [combineSteps, if_neg (by omega)]
      refine unitRun_two h1 ?_
      rw [convert_step (x := Config.csub p t) (by exact ⟨hs.1, hs.2⟩) (by exact hc _ rfl) rfl]
      have : d ≠ 0 := by omega
      have h0 : ¬ 0 < d := by omega
      simp [combined, refCombine, this, h0]
    · rw [c.den_toDbl, c.den_csub, hP t ht, ((odd_smul (by omega) P).2 hneg)]
      abel
  · rw [if_pos rfl] at hsign
    refine ⟨p, s.slots.tmp, ?_, fun G _ c P _ => by simp⟩
    rw [combineSteps, if_pos rfl, unitRun_succ (t := combined sel 0 next p s.slots.tmp s), unitRun_zero]
    rw [hstep]
    simp only [combineRule, hd, hsign, issueRule_none, gotoSub, countSkip, combined, refCombine]
    simp [← hp]
  · obtain ⟨t, ht⟩ := hT (by omega)
    rw [if_neg (by omega), if_neg (by omega)] at hsign
    have hwf : (Instr.add .tmp .acc (refTable sel (d.natAbs / 2))).wellFormed = true := by cases sel <;> rfl
    have h1 : unitStep s = .next { s with
        slots := { s.slots with tmp := some (Config.cadd p t) }
        uops := s.uops ++ [encode (.add .tmp .acc (refTable sel (d.natAbs / 2)))]
        seq := { s.seq with lsub := conv } } := by
      rw [hstep]
      simp only [combineRule, hd, hsign, tableSlot_tc8 hb]
      rw [issueRule_some (by rfl)]
      simp only [exec, execAdd, gotoSub, slotPD, hp, ht, Option.map_some, Option.bind_some, performUop_some hwf, putPI]
    refine ⟨Config.toDbl (Config.cadd p t), some (Config.cadd p t), ?_, fun G _ c P hP => ?_⟩
    · rw [combineSteps, if_neg (by omega)]
      refine unitRun_two h1 ?_
      rw [convert_step (x := Config.cadd p t) (by exact ⟨hs.1, hs.2⟩) (by exact hc _ rfl) rfl]
      have : d ≠ 0 := by omega
      simp [combined, refCombine, this, hpos]
    · rw [c.den_toDbl, c.den_cadd, hP t ht, ((odd_smul (by omega) P).1 hpos)]

end Sys2Proof.Machine
end

