-- ==== Sys2Proof/Laws/Iteration.lean ====
section
/-! SUPPORT. One iteration of the loop and a run of the whole loop (spec/42_multiplier.md R179 to R190), with the words issued, the counters
and the value the accumulator denotes (R194, R195). -/

namespace Sys2Proof.Machine

/-- Digit sequences that both tables have entries for. -/
structure DigitRange (na nb : Nat → Int) : Prop where
  a : ∀ i, na i = 0 ∨ na i % 2 = 1 ∧ (na i).natAbs ≤ digitBound .a
  b : ∀ i, nb i = 0 ∨ nb i % 2 = 1 ∧ (nb i).natAbs ≤ digitBound .b

/-- The digits of the two encodings of a multiplication have entries in the tables (R151, R155). -/
theorem naf_range (a b : Nat) : DigitRange (naf a 5) (naf b 8) :=
  ⟨fun i => naf_bound (by omega) a i, fun i => naf_bound (by omega) b i⟩

/-- Every entry of the table of A holds a value. -/
def TableFull (s : State) : Prop := ∀ j : Fin 8, ∃ t, s.slots.ta[j] = some t

/-- The table of A denotes the odd multiples of `P` (R154). -/
def TableOfA {G : Type} [AddCommGroup G] (c : PointContract G) (P : G) (s : State) : Prop :=
  ∀ (j : Fin 8) (t : PS), s.slots.ta[j] = some t → c.denPS t = (2 * j.val + 1) • P

/-- What one iteration at position `i` does to a state: the accumulator, `TMP`, the words, the counters and the control position. -/
structure Iterated (na nb : Nat → Int) (i : Nat) (s t : State) : Prop where
  frame : ∃ q x, t = { s with
    slots := { s.slots with acc := some q, tmp := x }
    uops := s.uops ++ (refIteration na nb i).map encode
    iter := t.iter, skip := t.skip, seq := { s.seq with q := t.seq.q, li := t.seq.li, lsub := t.seq.lsub } }
  iter : t.iter = if s.seq.diag then s.iter + 1 else s.iter
  skip : t.skip = if s.seq.diag then
    s.skip + BitVec.ofNat 10 ((if na i = 0 then 1 else 0) + if nb i = 0 then 1 else 0) else s.skip
  last : i = 0 → t.seq.q = .mOut
  more : 0 < i → t.seq.q = .mLoop ∧ t.seq.lsub = .lDbl ∧ t.seq.li.toNat = i - 1

theorem digitByte_of_holds {sel : Sel} {d : Nat → Int} {s : State} (h : HoldsDigits sel d s) (i : BitVec 8) :
    digitByte sel i s = tc8 (d i.toNat) := by simp [digitByte, h i]

theorem refTable_value {sel : Sel} {d : Int} {s : State} (hT : TableFull s) :
    ∃ t, slotPS s.slots (refTable sel (d.natAbs / 2)) = some t := by
  cases sel
  · exact hT _
  · exact ⟨_, rfl⟩

/-- One iteration (R179 to R190). -/
theorem iteration_run {na nb : Nat → Int} (hr : DigitRange na nb) {i : Nat} {s : State} {p : PD} (hs : AtSub s .lDbl)
    (hi : s.seq.li.toNat = i) (hp : s.slots.acc = some p) (hT : TableFull s) (ha : HoldsDigits .a na s)
    (hb : HoldsDigits .b nb s) :
    ∃ t q, unitRun (2 + combineSteps (na i) + combineSteps (nb i)) s = .next t ∧ Iterated na nb i s t ∧
      t.slots.acc = some q ∧
      ∀ (G : Type) [AddCommGroup G] (c : PointContract G) (P gen : G), TableOfA c P s → TableOfB c gen →
        c.denPD q = 2 • c.denPD p + na i • P + nb i • gen := by
  -- the doubling
  obtain ⟨u, hu⟩ : ∃ u : State, u = { s with
      slots := { s.slots with acc := some (Config.double p) }, uops := s.uops ++ [encode (.dbl .acc .acc .none)]
      iter := if s.seq.diag then s.iter + 1 else s.iter, seq := { s.seq with lsub := .lA } } := ⟨_, rfl⟩
  have h1 : unitStep s = .next u := by
    rw [unitStep_mLoop hs.1, loopRule, hs.2]
    simp only [doubleRule]
    rw [issueRule_some (by rfl)]
    simp only [exec, execDbl, gotoSub, countIter, slotPD, hp, Option.map_some]
    rw [performUop_some (by rfl), hu]
    rfl
  -- the digit of a
  have hda : digitByte .a u.seq.li u = tc8 (na i) := by
    rw [hu]
    exact (digitByte_of_holds ha _).trans (by rw [hi])
  obtain ⟨q1, x1, h2, hq1⟩ := combine_run (sel := .a) (conv := .lAcv) (next := .lB) (s := u) (p := Config.double p)
    (by rw [hu]; exact hs.1) (by rw [hu]; rfl) (fun t ht => by rw [loopRule, ht]) hda (hr.a i) (by rw [hu])
    (fun _ => by rw [hu]; exact refTable_value hT)
  -- the digit of b
  obtain ⟨w, hw⟩ : ∃ w, w = combined .a (na i) .lB q1 x1 u := ⟨_, rfl⟩
  rw [← hw] at h2
  have hdb : digitByte .b w.seq.li w = tc8 (nb i) := by
    rw [← hi, hw, hu]
    exact digitByte_of_holds hb _
  obtain ⟨q2, x2, h3, hq2⟩ := combine_run (sel := .b) (conv := .lBcv) (next := .lNext) (s := w) (p := q1)
    (by rw [hw, hu]; exact hs.1) (by rw [hw, hu]; rfl) (fun t ht => by rw [loopRule, ht]) hdb (hr.b i) (by rw [hw]; rfl)
    (fun _ => ⟨_, rfl⟩)
  -- the end of the iteration
  obtain ⟨v, hv⟩ : ∃ v, v = combined .b (nb i) .lNext q2 x2 w := ⟨_, rfl⟩
  rw [← hv] at h3
  have hvs : AtPhase v .mLoop := by rw [hv, hw, hu]; exact hs.1
  have hvl : v.seq.lsub = .lNext := by rw [hv]; rfl
  have hvi : v.seq.li = s.seq.li := by rw [hv, hw, hu]; rfl
  have h4 : unitStep v = .next (nextRule v).2 := by
    rw [unitStep_mLoop hvs, loopRule, hvl]
    exact issueRule_none _
  refine ⟨(nextRule v).2, q2, ?_, ?_, ?_, fun G _ c P gen hA hB => ?_⟩
  · rw [show 2 + combineSteps (na i) + combineSteps (nb i) = 1 + combineSteps (na i) + combineSteps (nb i) + 1 by omega,
      unitRun_add (t := v), unitRun_one h4]
    rw [unitRun_add (t := w), h3]
    rw [unitRun_add (t := u) (unitRun_one h1), h2]
  · have hz : v.seq.li = 0 ↔ i = 0 := by
      rw [hvi, ← hi]
      exact ⟨fun h => by rw [h]; rfl, fun h => BitVec.eq_of_toNat_eq h⟩
    have hdec : 0 < i → (v.seq.li - 1).toNat = i - 1 := fun h => by
      have := v.seq.li.isLt
      rw [BitVec.toNat_sub, show (1 : BitVec 8).toNat = 1 from rfl, hvi, hi]
      rw [hvi, hi] at this
      omega
    refine ⟨⟨q2, x2, ?_⟩, ?_, ?_, fun h => ?_, fun h => ?_⟩
    · have : (s.uops ++ [encode (.dbl .acc .acc .none)]) ++ (refCombine .a (na i)).map encode ++
          (refCombine .b (nb i)).map encode = s.uops ++ (refIteration na nb i).map encode := by
        simp [refIteration]
      rw [← this]
      simp only [nextRule]
      split_ifs <;> rw [hv, hw, hu] <;> rfl
    · simp only [nextRule]
      split_ifs <;> rw [hv, hw, hu] <;> simp_all [combined]
    · have : (nextRule v).2.skip = v.skip := by
        simp only [nextRule]
        split_ifs <;> rfl
      rw [this, hv, hw, hu]
      simp only [combined]
      cases s.seq.diag <;> by_cases h5 : na i = 0 <;> by_cases h6 : nb i = 0 <;> simp [h5, h6, BitVec.add_assoc]
    · simp [nextRule, hz.2 h]
    · have hne : v.seq.li ≠ 0 := fun e => by
        have := hz.1 e
        omega
      have hn : (nextRule v).2 = { v with seq := { v.seq with li := v.seq.li - 1, lsub := .lDbl } } := if_neg hne
      rw [hn]
      exact ⟨hvs.2, rfl, hdec h⟩
  · simp only [nextRule]
    split_ifs <;> rw [hv] <;> rfl
  · rw [hq2 G c gen fun t ht => ?_, hq1 G c P fun t ht => ?_, c.den_double, two_nsmul]
    · rw [hu] at ht
      have hlt : (na i).natAbs / 2 < 8 := by
        rcases hr.a i with h0 | ⟨-, h⟩
        · rw [h0]; decide
        · have : (na i).natAbs ≤ 15 := h
          omega
      have := hA (Fin.ofNat 8 ((na i).natAbs / 2)) t ht
      rwa [show (Fin.ofNat 8 ((na i).natAbs / 2)).val = (na i).natAbs / 2 from Nat.mod_eq_of_lt hlt] at this
    · have hlt : (nb i).natAbs / 2 < 64 := by
        rcases hr.b i with h0 | ⟨-, h⟩
        · rw [h0]; decide
        · have : (nb i).natAbs ≤ 127 := h
          omega
      have := hB (Fin.ofNat 64 ((nb i).natAbs / 2))
      rw [show (Fin.ofNat 64 ((nb i).natAbs / 2)).val = (nb i).natAbs / 2 from Nat.mod_eq_of_lt hlt] at this
      rw [← this]
      exact congrArg c.denPS (Option.some.inj ht).symm

end Sys2Proof.Machine
end

