-- ==== Sys2Proof/Laws/LoopRun.lean ====
section
/-! SUPPORT. A run of the whole loop (spec/42_multiplier.md R179 to R190, R200) and the highest used position (R177). -/

namespace Sys2Proof.Machine

theorem two_pow_succ_zsmul {G : Type} [AddCommGroup G] (n : Nat) (x : G) : (2 : Int) ^ n • 2 • x = (2 : Int) ^ (n + 1) • x := by
  rw [← natCast_zsmul, smul_smul, pow_succ]
  rfl

/-- The value of a digit sequence below a position. -/
def digitSum (d : Nat → Int) : Nat → Int
  | 0 => 0
  | n + 1 => digitSum d n + d n * 2 ^ n

theorem digitSum_eq (d : Nat → Int) (n : Nat) : digitSum d n = ∑ i ∈ Finset.range n, d i * 2 ^ i := by
  induction n with
  | zero => rfl
  | succ n ih => rw [digitSum, ih, Finset.sum_range_succ]

theorem combineSteps_eq (d : Int) : combineSteps d = 1 + if d = 0 then 0 else 1 := by
  unfold combineSteps
  split_ifs <;> rfl

/-- A run of the loop from position `i` down to 0. -/
theorem loop_run {na nb : Nat → Int} (hr : DigitRange na nb) (i : Nat) :
    ∀ (s : State) (p : PD), AtSub s .lDbl → s.seq.li.toNat = i → s.slots.acc = some p → TableFull s →
    HoldsDigits .a na s → HoldsDigits .b nb s →
    ∃ t q x, unitRun (4 * (i + 1) + nonzeroCount na (i + 1) + nonzeroCount nb (i + 1)) s = .next t ∧
      t = { s with
        slots := { s.slots with acc := some q, tmp := x }
        uops := s.uops ++ (refLoop na nb i).map encode
        iter := t.iter, skip := t.skip, seq := { s.seq with q := .mOut, li := t.seq.li, lsub := t.seq.lsub } } ∧
      t.iter = (if s.seq.diag then s.iter + BitVec.ofNat 9 (i + 1) else s.iter) ∧
      t.skip = (if s.seq.diag then
        s.skip + BitVec.ofNat 10 (zeroCount na (i + 1) + zeroCount nb (i + 1)) else s.skip) ∧
      ∀ (G : Type) [AddCommGroup G] (c : PointContract G) (P gen : G), TableOfA c P s → TableOfB c gen →
        c.denPD q = (2 : Int) ^ (i + 1) • c.denPD p + digitSum na (i + 1) • P + digitSum nb (i + 1) • gen := by
  induction i with
  | zero =>
    intro s p hs hi hp hT ha hb
    obtain ⟨t, q, hrun, hit, hacc, hden⟩ := iteration_run hr hs hi hp hT ha hb
    obtain ⟨q', x, hf⟩ := hit.frame
    have hq' : q' = q := by
      rw [hf] at hacc
      exact Option.some.inj hacc
    subst hq'
    refine ⟨t, q', x, ?_, ?_, ?_, ?_, fun G _ c P gen hA hB => ?_⟩
    · rw [← hrun]
      congr 1
      simp only [combineSteps_eq, nonzeroCount]
      omega
    · rw [hit.last rfl] at hf
      exact hf
    · exact hit.iter
    · rw [hit.skip]
      simp only [zeroCount, Nat.zero_add]
    · rw [hden G c P gen hA hB]
      simp only [digitSum, pow_zero, mul_one, zero_add, pow_one]
      rw [ofNat_zsmul]
  | succ i ih =>
    intro s p hs hi hp hT ha hb
    obtain ⟨t, q, hrun, hit, hacc, hden⟩ := iteration_run hr hs hi hp hT ha hb
    obtain ⟨hq1, hq2, hq3⟩ := hit.more (by omega)
    obtain ⟨q', x, hf⟩ := hit.frame
    have hs' : AtSub t .lDbl := ⟨⟨by rw [hf]; exact hs.1.1, hq1⟩, hq2⟩
    have hT' : TableFull t := by rw [hf]; exact hT
    have ha' : HoldsDigits .a na t := by rw [hf]; exact ha
    have hb' : HoldsDigits .b nb t := by rw [hf]; exact hb
    obtain ⟨u, r, y, hrun', hf', hiter', hskip', hden'⟩ := ih t q hs' (by rw [hq3]; rfl) hacc hT' ha' hb'
    have hdiag : t.seq.diag = s.seq.diag := by rw [hf]
    refine ⟨u, r, y, ?_, ?_, ?_, ?_, fun G _ c P gen hA hB => ?_⟩
    · rw [← hrun', ← unitRun_add hrun]
      congr 1
      simp only [combineSteps_eq, nonzeroCount]
      omega
    · have : (s.uops ++ (refIteration na nb (i + 1)).map encode) ++ (refLoop na nb i).map encode =
          s.uops ++ (refLoop na nb (i + 1)).map encode := by
        simp [refLoop]
      rw [← this, hf', hf]
    · rw [hiter', hdiag, hit.iter]
      split_ifs
      · rw [BitVec.add_assoc]
        congr 1
        rw [show i + 1 + 1 = 1 + (i + 1) by omega, BitVec.ofNat_add 1 (i + 1)]
        rfl
      · rfl
    · rw [hskip', hdiag, hit.skip]
      cases s.seq.diag
      · rfl
      · have hz (d : Nat → Int) : zeroCount d (i + 1 + 1) = zeroCount d (i + 1) + if d (i + 1) = 0 then 1 else 0 := rfl
        simp only [if_true]
        rw [BitVec.add_assoc, ← BitVec.ofNat_add, hz na, hz nb]
        congr 2
        omega
    · have hA' : TableOfA c P t := by rw [hf]; exact hA
      rw [hden' G c P gen hA' hB, hden G c P gen hA hB]
      have hD (d : Nat → Int) : digitSum d (i + 1 + 1) = digitSum d (i + 1) + d (i + 1) * 2 ^ (i + 1) := rfl
      rw [hD na, hD nb, smul_add, smul_add, two_pow_succ_zsmul, smul_smul, smul_smul, add_smul, add_smul,
        mul_comm _ (na (i + 1)), mul_comm _ (nb (i + 1))]
      generalize (na (i + 1) * 2 ^ (i + 1)) • P = x₁, (nb (i + 1) * 2 ^ (i + 1)) • gen = x₂, digitSum na (i + 1) • P = x₃,
        digitSum nb (i + 1) • gen = x₄, (2 : Int) ^ (i + 1 + 1) • c.denPD p = x₅
      abel

/-! ### The highest used position -/

theorem highest_spec (p : Nat → Bool) (n : Nat) :
    (∀ i, highest p n < i → i < n → p i = false) ∧ (p (highest p n) = true ∨ highest p n = 0) ∧
      highest p n ≤ n - 1 := by
  induction n with
  | zero => exact ⟨fun i _ h => by omega, .inr rfl, Nat.le_refl _⟩
  | succ n ih =>
    unfold highest
    split_ifs with h
    · exact ⟨fun i h1 h2 => by omega, .inl h, Nat.le_refl _⟩
    · refine ⟨fun i h1 h2 => ?_, ih.2.1, by omega⟩
      by_cases hin : i = n
      · simpa [hin] using h
      · exact ih.1 i h1 (by omega)

theorem highest_congr {p q : Nat → Bool} {n : Nat} (h : ∀ i < n, p i = q i) : highest p n = highest q n := by
  induction n with
  | zero => rfl
  | succ n ih =>
    unfold highest
    rw [h n (by omega), ih fun i hi => h i (by omega)]

end Sys2Proof.Machine
end

