-- ==== Sys2Proof/Laws/Step.lean ====
section
/-! SUPPORT. The three cases of a step of the machine (spec/00_scope.md R11): the point unit's word, the host's move, the unit's
step. -/

namespace Sys2Proof.Machine

/-- A word waiting at the point unit is performed. -/
theorem step_port {s : State} {w : Word} (h : s.port = some w) : step s = pointUnit w { s with port := none } := by
  simp [step, machineStep, h]

/-- Else the host makes its next move. -/
theorem step_host {s : State} {a : HostAction} {rest : List HostAction} (hp : s.port = none) (h : s.host = a :: rest) :
    step s = hostMove a { s with host := rest } := by
  unfold step machineStep
  split
  · rename_i w hw
    exact absurd hw (by simp [hp])
  · simp [h]

/-- Else the unit takes its step. -/
theorem step_unit {s : State} (hp : s.port = none) (h : s.host = []) : step s = unitStep s := by
  simp [step, machineStep, hp, h]

/-- A decoded micro-operation is one: a word at the point unit runs no command. -/
theorem decodeUop_isUop {w : Word} {i : Instr} (h : decodeUop w = .ok i) : i.isCommand = false := by
  simp only [decodeUop] at h
  split_ifs at h
  unfold uopOfCode at h
  split at h <;> cases h <;> rfl

/-- A decoded command is one. -/
theorem decodeCmd_isCommand {w : Word} {i : Instr} (h : decodeCmd w = .ok i) : i.isCommand = true := by
  simp only [decodeCmd] at h
  split_ifs at h <;> cases h <;> rfl

end Sys2Proof.Machine
end

