-- ==== Sys2Proof/Tests/Slice0.lean ====
section
/-! SUPPORT. Tests, each about one step: the refusals of WellFormed, words written out from spec/30_encoding.md, examples of the
spec's rules, and for every statement with hypotheses a witness that meets them. Expected values are the spec's. -/

namespace Sys2Proof.Tests

open Sys2Proof.Machine

/-! ### Well-formedness: one ill-formed term for each check, refused -/

theorem test_wf_enc_narrow : (Instr.enc 1 .a).wellFormed = false := by decide
theorem test_wf_enc_wide : (Instr.enc 9 .b).wellFormed = false := by decide
theorem test_wf_ident_dst : (Instr.ident .d .none .none).wellFormed = false := by decide
theorem test_wf_ident_src1 : (Instr.ident .acc .ain .none).wellFormed = false := by decide
theorem test_wf_ident_src2 : (Instr.ident .acc .none .e).wellFormed = false := by decide
theorem test_wf_dbl_pair : (Instr.dbl .d .acc .none).wellFormed = false := by decide
theorem test_wf_dbl_src2 : (Instr.dbl .acc .acc .d).wellFormed = false := by decide
theorem test_wf_add_build_bound : (Instr.add .tmp .d (.ta 7)).wellFormed = false := by decide
theorem test_wf_add_dst : (Instr.add .acc .acc (.tb 0)).wellFormed = false := by decide
theorem test_wf_sub_build : (Instr.sub .tmp .d (.ta 0)).wellFormed = false := by decide
theorem test_wf_todbl_src : (Instr.todbl .acc .e .none).wellFormed = false := by decide
theorem test_wf_todbl_dst : (Instr.todbl .d .tmp .none).wellFormed = false := by decide
theorem test_wf_tosto_first : (Instr.tosto (.ta 0) .e .none).wellFormed = false := by decide
theorem test_wf_tosto_other : (Instr.tosto (.ta 1) .ain .none).wellFormed = false := by decide
theorem test_wf_tosto_tb : (Instr.tosto (.tb 1) .e .none).wellFormed = false := by decide
theorem test_wf_toext_dst : (Instr.toext .d .acc .none).wellFormed = false := by decide
theorem test_wf_unassigned : (Instr.dbl (.unassigned 0) .ain .none).wellFormed = false := by decide

/-! ### Decoding: words written out field by field (R91 to R93: `SEL W OP`; R97: `POP 0 DST SRC1 SRC2`) -/

/-- `ENC SB, 8`: reserved 0, `SEL` 1, `W` 1000, `OP` 0001 (R92). -/
theorem test_decode_enc : decodeWord 0b00000000000000000000000_1_1000_0001#32 = .ok (.enc 8 .b) := by rfl
/-- `MUL`: `OP` 0010 (R93). -/
theorem test_decode_mul : decodeWord 0b0000000000000000000000000000_0010#32 = .ok .mul := by rfl
/-- `MULS`: `OP` 0011 (R93). -/
theorem test_decode_muls : decodeWord 0b0000000000000000000000000000_0011#32 = .ok .muls := by rfl
/-- `IDENT ACC`: 1, 0x4A, 0x7F, 0x7F. -/
theorem test_decode_ident :
    decodeWord 0b0001_0000000_1001010_1111111_1111111#32 = .ok (.ident .acc .none .none) := by rfl
/-- `DBL D, AIN`: 2, 0x49, 0x48, 0x7F. -/
theorem test_decode_dbl : decodeWord 0b0010_0000000_1001001_1001000_1111111#32 = .ok (.dbl .d .ain .none) := by rfl
/-- `ADD TMP, ACC, TA[3]`: 3, 0x4C, 0x4A, 0x43. -/
theorem test_decode_add : decodeWord 0b0011_0000000_1001100_1001010_1000011#32 = .ok (.add .tmp .acc (.ta 3)) := by rfl
/-- `SUB TMP, ACC, TB[57]`: 4, 0x4C, 0x4A, 0x39. -/
theorem test_decode_sub : decodeWord 0b0100_0000000_1001100_1001010_0111001#32 = .ok (.sub .tmp .acc (.tb 57)) := by rfl
/-- `TODBL E, TMP`: 5, 0x4B, 0x4C, 0x7F. -/
theorem test_decode_todbl : decodeWord 0b0101_0000000_1001011_1001100_1111111#32 = .ok (.todbl .e .tmp .none) := by rfl
/-- `TOSTO TA[7], E`: 6, 0x47, 0x4B, 0x7F. -/
theorem test_decode_tosto :
    decodeWord 0b0110_0000000_1000111_1001011_1111111#32 = .ok (.tosto (.ta 7) .e .none) := by rfl
/-- `TOEXT ROUT, ACC`: 7, 0x4D, 0x4A, 0x7F. -/
theorem test_decode_toext :
    decodeWord 0b0111_0000000_1001101_1001010_1111111#32 = .ok (.toext .rout .acc .none) := by rfl
/-- An illegal `OP` (R94). -/
theorem test_decode_illegal_op : decodeCmd 0x00000004 = .error .illegalOp := by rfl
/-- A reserved bit of `MUL` (R94). -/
theorem test_decode_reserved : decodeCmd 0x80000002 = .error .reservedBits := by rfl
/-- Reserved `POP` 8 (R100). -/
theorem test_decode_reserved_pop : decodeWord 0x80000000 = .error (.uop .reservedPop) := by rfl
/-- Bit 21 of a micro-operation word set (R97). -/
theorem test_decode_reserved_uop_bit : decodeWord 0x1032BFFF = .error (.uop .reservedBits) := by rfl

/-- The table build list with its words (R153). -/
theorem test_table_words : refTableBuild.map encode =
    [0x2012647F, 0x6010247F, 0x301324C0, 0x5012E67F, 0x601065FF, 0x301324C1, 0x5012E67F, 0x6010A5FF, 0x301324C2,
     0x5012E67F, 0x6010E5FF, 0x301324C3, 0x5012E67F, 0x601125FF, 0x301324C4, 0x5012E67F, 0x601165FF, 0x301324C5,
     0x5012E67F, 0x6011A5FF, 0x301324C6, 0x5012E67F, 0x6011E5FF] := by rfl

/-! ### States -/

/-- Idle after reset with both scalars and `AIN` set. -/
def ready : State := { State.reset with
  sa := 23, sb := 3, slots := { State.reset.slots with ain := some ⟨2⟩ } }

/-- Bit 255 of `SA`, of `SB`, of both. -/
def wideA : State := { ready with sa := 1 <<< 255 }
def wideB : State := { ready with sb := 1 <<< 255 }

/-- Every slot holds a value. -/
def full : State := { ready with
  slots := { ta := Vector.replicate 8 (some ⟨1⟩), ain := some ⟨2⟩, d := some ⟨3⟩, acc := some ⟨4⟩, e := some ⟨5⟩
             tmp := some ⟨6⟩, rout := some ⟨7⟩ } }

/-- A busy unit in a phase. -/
def busyIn (q : Phase) : State := { full with
  status := { full.status with busy := true }, seq := { full.seq with q := q } }

/-- The loop at a sub-step and position 0 with two stored digits. -/
def looping (l : LoopSub) (a b : Byte) : State := { busyIn .mLoop with
  mem := [(0x100, a), (0x200, b)], seq := { full.seq with q := .mLoop, lsub := l } }

/-- An encoding of `S` with width 5 into `NA` at a position. -/
def encodingOf (q : Phase) (x : Scalar) (epos : BitVec 9) : State := { busyIn q with
  enc := { ex := x, ec := false, ez := 0, epos := epos, ew := 5, esel := .a } }

/-- A fault has been recorded. -/
def faulted : State := faultRecorded 3 .a ready

/-- The state with host actions still to be made. -/
def withHost (s : State) (h : List HostAction) : State := { s with host := h }

/-- Whether an outcome is the next state `t`. -/
def isNext (o : Host.Outcome State Fault Refusal) (t : State) : Bool :=
  match o with
  | .next u => decide (u = t)
  | .fault _ => false
  | .refused _ => false

/-! ### Commands: acceptance and the checks of R235, with the witnesses of the statements about them -/

theorem wit_EncIsAcceptedAndStartsTheEncoding :
    AcceptsCommand ready ∧ 2 ≤ (2 : BitVec 4).toNat ∧ (8 : BitVec 4).toNat ≤ 8 ∧ (scalarOf .a ready)[255] = false ∧
      (scalarOf .b ready)[255] = false := ⟨⟨rfl, rfl⟩, by decide, by decide, by decide, by decide⟩

theorem wit_MulAndMulsAreAcceptedAndEncodeSAFirst :
    AcceptsCommand ready ∧ ready.sa[255] = false ∧ ready.sb[255] = false := ⟨⟨rfl, rfl⟩, by decide, by decide⟩

/-- `ENC SA, 5` (R120): the residual is loaded. -/
theorem test_enc_starts : isNext (writeCmd 0x00000051 ready) { ready with
    status := { ready.status with busy := true }, seq := { ready.seq with q := .eRun }
    enc := { ex := 23, ec := false, ez := 0, epos := 0, ew := 5, esel := .a } } = true := by decide

/-- `MUL` starts the encoding of `SA` with width 5 (R173). -/
theorem test_mul_starts : isNext (writeCmd 0x00000002 ready) { ready with
    status := { ready.status with busy := true }, seq := { ready.seq with q := .mEncA }
    enc := { ex := 23, ec := false, ez := 0, epos := 0, ew := 5, esel := .a } } = true := by decide

/-- `MULS` also sets `diag` and clears the counters (R173). -/
theorem test_muls_clears : isNext (writeCmd 0x00000003 { ready with iter := 9, skip := 8, score := 7 }) { ready with
    status := { ready.status with busy := true }, seq := { ready.seq with q := .mEncA, diag := true }
    enc := { ex := 23, ec := false, ez := 0, epos := 0, ew := 5, esel := .a } } = true := by decide

theorem wit_CommandChecks_op : writeCmd 0x00000000 ready = .next (faultRecorded 1 .a ready) := by rfl
theorem wit_CommandChecks_op_top : writeCmd 0xFFFFFFFF wideA = .next (faultRecorded 1 .a wideA) := by rfl
theorem wit_CommandChecks_rsvd_enc : writeCmd 0x00000201 wideA = .next (faultRecorded 2 .a wideA) := by rfl
theorem wit_CommandChecks_rsvd_mul : writeCmd 0x00000012 ready = .next (faultRecorded 2 .a ready) := by rfl
theorem wit_CommandChecks_win_low : writeCmd 0x00000011 wideA = .next (faultRecorded 3 .a wideA) := by rfl
theorem wit_CommandChecks_win_high : writeCmd 0x00000191 ready = .next (faultRecorded 3 .a ready) := by rfl
theorem wit_CommandChecks_range_enc : isNext (writeCmd 0x00000181 wideB) (faultRecorded 4 .b wideB) = true := by decide
theorem wit_CommandChecks_range_mul_a : isNext (writeCmd 0x00000002 wideA) (faultRecorded 4 .a wideA) = true := by decide
theorem wit_CommandChecks_range_mul_b : isNext (writeCmd 0x00000003 wideB) (faultRecorded 4 .b wideB) = true := by decide
theorem wit_CommandChecks_accepts : AcceptsCommand ready ∧ AcceptsCommand wideA ∧ AcceptsCommand wideB :=
  ⟨⟨rfl, rfl⟩, ⟨rfl, rfl⟩, ⟨rfl, rfl⟩⟩

theorem wit_CommandsAreIgnoredWhileBusyOrFaulted :
    ((busyIn .eRun).status.busy = true ∨ (busyIn .eRun).status.err = true) ∧
      (faulted.status.busy = true ∨ faulted.status.err = true) ∧ Instr.muls.isCommand = true :=
  ⟨.inl rfl, .inr rfl, rfl⟩

theorem wit_FaultChangesStatusOnly :
    AcceptsCommand ready ∧ writeCmd 0x00000191 ready = .next (faultRecorded 3 .a ready) ∧
      (faultRecorded 3 .a ready).status.err = true := ⟨⟨rfl, rfl⟩, rfl, rfl⟩

theorem wit_FaultStateIsSticky :
    faulted.status.err = true ∧ step (withHost faulted [.write 0x000 0x00000002]) = .next faulted ∧
      ∀ rest, (withHost faulted [.write 0x000 0x00000002]).port = none →
        (withHost faulted [.write 0x000 0x00000002]).host ≠ .reset :: rest :=
  ⟨rfl, rfl, fun _ _ h => by cases h⟩

theorem wit_CommandFrame : Instr.mul.isCommand = true ∧ exec .mul ready = .next (acceptMultiply false ready) ∧ Instr.mul ≠ .muls :=
  ⟨rfl, rfl, by decide⟩

/-! ### Micro-operations -/

/-- `IDENT ACC` reads no slot: it runs right after reset (R214). -/
theorem test_ident_runs_at_reset : exec (.ident .acc .none .none) State.reset = .next { State.reset with
    slots := { State.reset.slots with acc := some Config.identity }, uops := [0x1012BFFF] } := by rfl

/-- `DBL ACC, ACC` reads its source first (R212, R215). -/
theorem test_dbl_in_place : exec (.dbl .acc .acc .none) full = .next { full with
    slots := { full.slots with acc := some (Config.double ⟨4⟩) }, uops := [0x2012A57F] } := by rfl

/-- `ADD TMP, ACC, TA[0]` is `0x30132540` (R216). -/
theorem test_add_word : exec (.add .tmp .acc (.ta 0)) full = .next { full with
    slots := { full.slots with tmp := some (Config.cadd ⟨4⟩ ⟨1⟩) }, uops := [0x30132540] } := by rfl

/-- `SUB TMP, ACC, TA[4]` is `0x40132544` (R217). -/
theorem test_sub_word : exec (.sub .tmp .acc (.ta 4)) full = .next { full with
    slots := { full.slots with tmp := some (Config.csub ⟨4⟩ ⟨1⟩) }, uops := [0x40132544] } := by rfl

/-- `TODBL E, TMP` is `0x5012E67F` (R218). -/
theorem test_todbl_word : exec (.todbl .e .tmp .none) full = .next { full with
    slots := { full.slots with e := some (Config.toDbl ⟨6⟩) }, uops := [0x5012E67F] } := by rfl

/-- `TOSTO TA[1], E` is `0x601065FF` (R219). -/
theorem test_tosto_word : exec (.tosto (.ta 1) .e .none) full = .next { full with
    slots := { full.slots with ta := full.slots.ta.set 1 (some (Config.toSto ⟨5⟩)) }, uops := [0x601065FF] } := by rfl

/-- `TOEXT ROUT, ACC` keeps `ACC` (R220). -/
theorem test_toext_keeps_acc : exec (.toext .rout .acc .none) full = .next { full with
    slots := { full.slots with rout := some (Config.toExt ⟨4⟩) }, uops := [0x7013657F] } := by rfl

/-- The sources the result statements ask for hold values, at the first and the last table entry. -/
theorem wit_MicroOpSources :
    full.slots.ain = some ⟨2⟩ ∧ full.slots.d = some ⟨3⟩ ∧ full.slots.acc = some ⟨4⟩ ∧ full.slots.e = some ⟨5⟩ ∧
      full.slots.tmp = some ⟨6⟩ ∧ full.slots.ta[(0 : Fin 8)] = some ⟨1⟩ ∧ full.slots.ta[(7 : Fin 8)] = some ⟨1⟩ ∧
      (6 : Fin 8).val < 7 ∧ 0 < (7 : Fin 8).val := ⟨rfl, rfl, rfl, rfl, rfl, rfl, rfl, by decide, by decide⟩

theorem wit_EmptySourceSlotFaults :
    State.reset.slots.ain = none ∧ State.reset.slots.d = none ∧ State.reset.slots.acc = none ∧
      State.reset.slots.e = none ∧ State.reset.slots.tmp = none ∧ State.reset.slots.ta[(7 : Fin 8)] = none := by decide

theorem test_empty_slot_faults : exec (.dbl .d .ain .none) State.reset = .fault .emptySlot := by rfl

/-- `POP` 2 with slots the unit never issues, and a word with `POP` 0 (R100). -/
theorem wit_WordsOutsideTheTableAreRefused : ¬ R99Word 0x20000000 ∧ ¬ R99Word 0x00000000 := by
  constructor <;>
  · rintro (h | h | ⟨j, hj, h⟩ | h | ⟨j, hj, -, h⟩ | h | h | ⟨j, hj, h⟩ | ⟨j, hj, h⟩ | ⟨j, hj, h⟩ | ⟨j, hj, h⟩ | h | h)
    all_goals first | (revert h; decide) | (interval_cases j <;> (revert h; decide))

theorem test_outside_table_refused : pointUnit 0x20000000 full = .refused .outsideUopTable := by rfl

theorem wit_MicroOpFrame :
    (Instr.todbl .acc .tmp .none).isCommand = false ∧
      exec (.todbl .acc .tmp .none) full = .next { full with
        slots := { full.slots with acc := some (Config.toDbl ⟨6⟩) }, uops := [0x5012A67F] } ∧
      slotNumber .e ≠ (encode (.todbl .acc .tmp .none)).extractLsb' 14 7 := ⟨rfl, rfl, by decide⟩

/-! ### The host's accesses -/

theorem wit_IdleHostReadFollowsTheMap :
    ready.status.busy = false ∧ memRead (looping .lA 0xF7 0x0D).mem (0x100 + 0) = some 0xF7 ∧
      memRead [(0x2FF, (1 : Byte))] (0x200 + 255) = some 1 ∧ (0x00F : HostAddr).toNat ≤ 0x00F ∧
      0x020 ≤ (0x020 : HostAddr).toNat ∧ (0x0FF : HostAddr).toNat ≤ 0x0FF ∧ 0x300 ≤ (0x300 : HostAddr).toNat := by decide

/-- Digit −9 reads `0xFFFFFFF7` (R66). -/
theorem test_read_digit : hostReadWord 0x100 { ready with mem := [(0x100, 0xF7)] } = 0xFFFFFFF7 := by rfl

theorem wit_HostReadChangesNoUnitState :
    (withHost ready [.read 0x001]).port = none ∧ (withHost ready [.read 0x001]).host = [.read 0x001] ∧
      ready.status.busy = false := ⟨rfl, rfl, rfl⟩

theorem wit_HostWriteReplacesOneScalarWord : faulted.status.busy = false ∧ 0 < 8 ∧ 7 < 8 := by decide

/-- Bit 31 of `SA7` is bit 255 of the scalar (R65). -/
theorem test_write_top_word : isNext (hostWrite 0x017 0x80000000 State.reset) { State.reset with sa := 1 <<< 255 } = true := by decide

theorem wit_DroppedHostWrites :
    (busyIn .eRun).status.busy = true ∧ (0x001 : HostAddr).toNat ≠ 0 ∧
      ¬ (0x010 ≤ (0x00F : HostAddr).toNat ∧ (0x00F : HostAddr).toNat ≤ 0x01F) ∧
      ¬ (0x010 ≤ (0x020 : HostAddr).toNat ∧ (0x020 : HostAddr).toNat ≤ 0x01F) := by decide

theorem wit_HostPointAccess :
    ready.port = none ∧ ready.status.busy = false ∧ (busyIn .mTbl).status.busy = true ∧ full.slots.rout = some ⟨7⟩ ∧
      ready.slots.rout = none ∧ (withHost ready [.setPoint ⟨9⟩]).host = [.setPoint ⟨9⟩] ∧
      (withHost ready [.readPoint]).host = [.readPoint] := by decide

/-! ### Reset and the step -/

theorem wit_ResetEndsACommandAndClearsTheUnit :
    (withHost (busyIn .mLoop) [.reset]).port = none ∧ (withHost (busyIn .mLoop) [.reset]).host = [.reset] := ⟨rfl, rfl⟩

theorem test_reset_clears_fault : step (withHost faulted [.reset]) = .next State.reset := by rfl

theorem wit_StepRunsTheDecodedCommand :
    (withHost ready [.write 0x000 0x00000051]).port = none ∧ AcceptsCommand (withHost ready [.write 0x000 0x00000051]) ∧
      decodeCmd 0x00000051 = .ok (.enc 5 .a) := ⟨rfl, ⟨rfl, rfl⟩, rfl⟩

theorem wit_StepRunsTheDecodedMicroOp :
    ({ full with port := some 0x2012A57F } : State).port = some 0x2012A57F ∧
      decodeUop 0x2012A57F = .ok (.dbl .acc .acc .none) ∧ (Instr.dbl .acc .acc .none).isCommand = false := ⟨rfl, rfl, rfl⟩

theorem wit_PlacedWordRunsNext :
    decodeTableWord 32 0x51 = some (.enc 5 .a) ∧ (Instr.enc 5 .a).isCommand = true ∧ AcceptsCommand ready ∧
      decodeTableWord 32 0x1012BFFF = some (.ident .acc .none .none) ∧
      (Instr.ident .acc .none .none).isCommand = false ∧ 0x1012BFFF < 2 ^ 32 := ⟨rfl, rfl, ⟨rfl, rfl⟩, rfl, rfl, by decide⟩

theorem wit_StepIsTheUnitsStep :
    ready.port = none ∧ ready.host = [] ∧ (withHost ready [.tick]).host = [.tick] ∧
      (withHost (busyIn .mScan) [.poll]).host = [.poll] ∧ (withHost (busyIn .mScan) [.poll]).status.busy = true :=
  ⟨rfl, rfl, rfl, rfl, rfl⟩

theorem wit_IdleUnitKeepsItsState : ready.status.busy = false := rfl

theorem wit_UnitStepNext : unitStep (busyIn .mInit) = .next { busyIn .mInit with
    slots := { full.slots with acc := some Config.identity }, uops := [0x1012BFFF]
    seq := { full.seq with lsub := .lDbl, q := .mLoop } } := by rfl

/-! ### The encoder -/

theorem wit_EncoderStepWritesOneDigit :
    (encodingOf .eRun 23 0).status.busy = true ∧ Encoding (encodingOf .eRun 23 0) ∧
      (encodingOf .eRun 23 254).enc.epos.toNat < 255 := ⟨rfl, .inl rfl, by decide⟩

/-- The hypotheses on the digit at position 0 of 23 with width 5, all together: an odd window value with its top bit set. -/
theorem wit_EncoderStepWritesOneDigit_digit :
    23 = (encodingOf .eRun 23 0).enc.ec.toNat +
        (encodingOf .eRun 23 0).enc.ex.toNat % 2 ^ (encodingOf .eRun 23 0).enc.ew.toNat ∧
      (encodingOf .eRun 23 0).enc.ez = 0 ∧ 23 % 2 = 1 ∧
      Nat.testBit 23 ((encodingOf .eRun 23 0).enc.ew.toNat - 1) = true ∧
      (-9 : Int) = 23 - 2 ^ (encodingOf .eRun 23 0).enc.ew.toNat ∧
      (4 : BitVec 3) = BitVec.ofNat 3 ((encodingOf .eRun 23 0).enc.ew.toNat - 1) := by decide

/-- The four cases of the digit's hypothesis: a zero run, an even window, an odd one with the top bit clear, and with it set. -/
theorem wit_EncoderStepWritesOneDigit_cases :
    (1 : BitVec 3) ≠ 0 ∧ (false.toNat + (22 : Scalar).toNat % 2 ^ (5 : BitVec 4).toNat) % 2 = 0 ∧
      (false.toNat + (15 : Scalar).toNat % 2 ^ (5 : BitVec 4).toNat).testBit ((5 : BitVec 4).toNat - 1) = false ∧
      (true.toNat + (22 : Scalar).toNat % 2 ^ (5 : BitVec 4).toNat).testBit ((5 : BitVec 4).toNat - 1) = true := by decide

/-- `SA = 23`, `ENC SA, 5`: the first step writes −9 to `NA[0]`, sets the carry and a zero run of 4 (R120, R126). -/
theorem test_first_digit : unitStep (encodingOf .eRun 23 0) = .next { encodingOf .eRun 23 0 with
    mem := [(0x100, 0xF7)], enc := { ex := 11, ec := true, ez := 4, epos := 1, ew := 5, esel := .a } } := by rfl

theorem wit_LastEncoderStepEndsTheEncoding :
    (encodingOf .eRun 0 255).status.busy = true ∧ (encodingOf .mEncA 0 255).enc.epos = 255 ∧
      (encodingOf .eRun 0 255).seq.q = .eRun ∧ (encodingOf .mEncA 0 255).seq.q = .mEncA ∧
      (encodingOf .mEncB 0 255).seq.q = .mEncB := ⟨rfl, rfl, rfl, rfl, rfl⟩

theorem wit_NafDigits : 2 ^ 254 < 2 ^ 255 ∧ naf 23 5 0 ≠ 0 := by decide

/-- `naf(23, 5)` is −9 at position 0 and 1 at position 5 (R120). -/
theorem test_naf : naf 23 5 0 = -9 ∧ naf 23 5 4 = 0 ∧ naf 23 5 5 = 1 ∧ naf 23 5 6 = 0 := by decide

/-! ### The sequencer -/

theorem wit_TablePhaseIssuesTheNextEntry :
    AtPhase (busyIn .mTbl) .mTbl ∧ (busyIn .mTbl).seq.tstep.toNat < 22 ∧ (21 : BitVec 5).toNat < 22 ∧
      (busyIn .mTbl).seq.tstep = 0 ∧ (busyIn .mTbl).slots.ain = some ⟨2⟩ := ⟨⟨rfl, rfl⟩, by decide, by decide, rfl, rfl⟩

theorem wit_TableEnd : ({ busyIn .mTbl with seq := { full.seq with q := .mTbl, tstep := 22 } } : State).seq.tstep = 22 := rfl

theorem wit_Phases :
    AtPhase (busyIn .mScan) .mScan ∧ AtPhase (busyIn .mInit) .mInit ∧ AtPhase (busyIn .mOut) .mOut ∧
      (busyIn .mOut).slots.acc = some ⟨4⟩ := ⟨⟨rfl, rfl⟩, ⟨rfl, rfl⟩, ⟨rfl, rfl⟩, rfl⟩

theorem wit_LoopDoublesTheAccumulator : AtSub (looping .lDbl 0 0) .lDbl ∧ (looping .lDbl 0 0).slots.acc = some ⟨4⟩ :=
  ⟨⟨⟨rfl, rfl⟩, rfl⟩, rfl⟩

/-- Digits 15, −15 and 0 select entry 7, entry 7 and none (R156). -/
theorem wit_LoopCombinesWithTableA :
    AtSub (looping .lA 0x0F 0) .lA ∧ memRead (looping .lA 0x0F 0).mem (digitAddr .a (looping .lA 0x0F 0).seq.li) = some 0x0F ∧
      (0 < (0x0F : Byte).toInt ∧ (7 : Fin 8).val = (0x0F : Byte).toInt.natAbs / 2) ∧
      ((0xF1 : Byte).toInt < 0 ∧ (7 : Fin 8).val = (0xF1 : Byte).toInt.natAbs / 2) ∧ (0x00 : Byte).toInt = 0 ∧
      (looping .lA 0x0F 0).slots.acc = some ⟨4⟩ ∧ (looping .lA 0x0F 0).slots.ta[(7 : Fin 8)] = some ⟨1⟩ :=
  ⟨⟨⟨rfl, rfl⟩, rfl⟩, by decide, by decide, by decide, by decide, rfl, by decide⟩

/-- Digits 127 and −127 select entry 63 (R156). -/
theorem wit_LoopCombinesWithTableB :
    AtSub (looping .lB 0 0x81) .lB ∧ memRead (looping .lB 0 0x81).mem (digitAddr .b (looping .lB 0 0x81).seq.li) = some 0x81 ∧
      (0 < (0x7F : Byte).toInt ∧ (63 : Fin 64).val = (0x7F : Byte).toInt.natAbs / 2) ∧
      ((0x81 : Byte).toInt < 0 ∧ (63 : Fin 64).val = (0x81 : Byte).toInt.natAbs / 2) ∧ (0x00 : Byte).toInt = 0 ∧
      (looping .lB 0 0x81).slots.acc = some ⟨4⟩ := ⟨⟨⟨rfl, rfl⟩, rfl⟩, by decide, by decide, by decide, by decide, rfl⟩

/-- A digit −127 of b issues `SUB TMP, ACC, TB[63]` (R99, R186). -/
theorem test_sub_tb63 : unitStep (looping .lB 0 0x81) = .next { looping .lB 0 0x81 with
    slots := { full.slots with tmp := some (Config.csub ⟨4⟩ (Config.tbConst 63)) }, uops := [0x4013253F]
    seq := { full.seq with q := .mLoop, lsub := .lBcv } } := by rfl

theorem wit_LoopConvertsAfterACombine :
    (looping .lAcv 1 1).slots.tmp = some ⟨6⟩ ∧ AtSub (looping .lAcv 1 1) .lAcv ∧ AtSub (looping .lBcv 1 1) .lBcv :=
  ⟨rfl, ⟨⟨rfl, rfl⟩, rfl⟩, ⟨⟨rfl, rfl⟩, rfl⟩⟩

theorem wit_LoopCountsDownToZero :
    AtSub (looping .lNext 1 1) .lNext ∧ (looping .lNext 1 1).seq.li = 0 ∧
      0 < ({ looping .lNext 1 1 with seq := { full.seq with q := .mLoop, lsub := .lNext, li := 1 } } : State).seq.li.toNat :=
  ⟨⟨⟨rfl, rfl⟩, rfl⟩, rfl, by decide⟩

/-! ### Whole commands -/

theorem wit_MultiplicationLengthAndBounds : 0 < 2 ^ 255 ∧ 2 ^ 255 - 1 < 2 ^ 255 := by decide

/-- The hypotheses of the statements about a whole `ENC`, `MUL` or `MULS`. -/
theorem wit_WholeCommands :
    AcceptsCommand ready ∧ ready.sa[255] = false ∧ ready.sb[255] = false ∧ ready.slots.ain = some ⟨2⟩ ∧
      23 = ready.sa.toNat ∧ 3 = ready.sb.toNat := ⟨⟨rfl, rfl⟩, by decide, by decide, rfl, by decide, by decide⟩

/-- The hypotheses of the statement about the pseudo-command `multiply`. -/
theorem wit_MultiplyActions :
    (withHost State.reset (multiplyActions 2 ⟨2⟩ 0)).port = none ∧
      AcceptsCommand (withHost State.reset (multiplyActions 2 ⟨2⟩ 0)) ∧ (2 : Scalar)[255] = false ∧
      (0 : Scalar)[255] = false ∧ (withHost State.reset (multiplyActions 2 ⟨2⟩ 0)).host = multiplyActions 2 ⟨2⟩ 0 ++ [] :=
  ⟨rfl, ⟨rfl, rfl⟩, by decide, by decide, by simp [withHost]⟩

/-- The contracts of the point unit and of the table of B can be met, here over the group of one element. -/
theorem wit_PointContract : ∃ c : PointContract PUnit, TableOfB c PUnit.unit :=
  ⟨{ denPD := fun _ => .unit, denPI := fun _ => .unit, denPS := fun _ => .unit, denPX := fun _ => .unit
     den_identity := rfl, den_double := fun _ => rfl, den_cadd := fun _ _ => rfl, den_csub := fun _ _ => rfl
     den_toDbl := fun _ => rfl, den_toSto := fun _ => rfl, den_toExt := fun _ => rfl }, fun _ => rfl⟩

theorem wit_CountersNeverFeedBack :
    SameButDiag (looping .lA 0 0)
      { looping .lA 0 0 with iter := 3, seq := { full.seq with q := .mLoop, lsub := .lA, diag := true } } := rfl

/-- A busy state that meets the invariant, in the middle of an encoding. -/
theorem wit_EveryStepKeepsTheInvariant : MachineInv { encodingOf .mEncA 23 0 with mem := [(0x100, 0xF7)] } where
  status := ⟨⟨fun _ => by decide, fun _ => rfl⟩, by decide, by decide, by decide, fun _ => ⟨rfl, rfl⟩⟩
  enc := fun _ => ⟨by decide, by decide, by decide, fun _ => ⟨rfl, rfl⟩, fun h => by cases h⟩
  table := fun h => by cases h
  mem := by decide
  digits := by
    intro c hc
    simp only [List.mem_singleton] at hc
    subst hc
    decide

end Sys2Proof.Tests
end

section
/-! PROOFS. The family of spec/10_state.md: the state's fields, its reset values, where an instruction comes to run, and the invariant
that every step keeps. -/

namespace Sys2Proof.Machine

/-! ### What a command can do -/

/-- Commands are ignored exactly where none is accepted (10_state R23). -/
theorem commandsIgnored_eq_false {s : State} : commandsIgnored s = false ↔ AcceptsCommand s := by
  simp [commandsIgnored, AcceptsCommand]

/-- A command in a busy or faulted unit is ignored (R23; log entry 14). -/
theorem exec_command_ignored {i : Instr} {s : State} (hi : i.isCommand = true) (h : commandsIgnored s = true) :
    exec i s = .next s := by
  cases i with
  | enc w sel => simp [exec, execEnc, h]
  | mul => simp [exec, execMul, acceptMultiply, h]
  | muls => simp [exec, execMuls, acceptMultiply, h]
  | _ => cases hi

/-- A `CMD` write to a busy or faulted unit is ignored (R23, R73, R238). -/
theorem writeCmd_ignored {v : Word} {s : State} (h : commandsIgnored s = true) : writeCmd v s = .next s := by
  simp [writeCmd, h]

/-- A `CMD` write of a command's word to a unit that accepts it is `exec` of the command (R23). -/
theorem writeCmd_decoded {v : Word} {i : Instr} {s : State} (h : AcceptsCommand s) (hd : decodeCmd v = .ok i) :
    writeCmd v s = exec i s := by
  simp [writeCmd, commandsIgnored_eq_false.2 h, hd]

/-- While the unit is idle a write to address 0 is a write to `CMD` (20_memory R64). -/
theorem hostWrite_cmd {v : Word} {s : State} (h : s.status.busy = false) : hostWrite 0x000 v s = writeCmd v s := by
  simp [hostWrite, h]

/-- The encodings a command starts with, by the phase it enters: `ENC` any legal one, `MUL` and `MULS` that of `SA` with width 5 (40_naf_encoder
R120, 42_multiplier R173). -/
def CommandEncoding (q : Phase) (sel : Sel) (w : BitVec 4) : Prop :=
  q = .eRun ∧ legalWidth w = true ∨ q = .mEncA ∧ sel = .a ∧ w = Config.wa

/-- What a command does in a unit that accepts one (R120, R173, R233 to R236): it records a fault, or it starts an encoding, the counters
cleared before it or not. -/
def CommandEffect (s t : State) : Prop :=
  (∃ c sel, t = raiseFault c sel s) ∨
    ∃ q diag sel w u, CommandEncoding q sel w ∧ (u = s ∨ u = clearCounters s) ∧
      t = startEncoding sel w (beginCommand q diag u)

/-- `MUL` and `MULS` start the encoding of `SA`, or fault on a scalar out of range (R173, R234). -/
theorem acceptMultiply_effect {diag : Bool} {s : State} (ha : AcceptsCommand s) :
    CommandEffect s (acceptMultiply diag s) := by
  simp only [acceptMultiply, commandsIgnored_eq_false.2 ha, Bool.false_eq_true, if_false]
  split_ifs
  · exact .inl ⟨_, _, rfl⟩
  · exact .inl ⟨_, _, rfl⟩
  · exact .inr ⟨_, _, _, _, _, .inr ⟨rfl, rfl, rfl⟩, .inr rfl, rfl⟩
  · exact .inr ⟨_, _, _, _, _, .inr ⟨rfl, rfl, rfl⟩, .inl rfl, rfl⟩

/-- Every command in a unit that accepts it has one of the effects of a command. -/
theorem exec_command_effect {i : Instr} {s t : State} (hi : i.isCommand = true) (ha : AcceptsCommand s)
    (h : exec i s = .next t) : CommandEffect s t := by
  cases i with
  | enc w sel =>
    simp only [exec, execEnc, commandsIgnored_eq_false.2 ha, Bool.false_eq_true, if_false] at h
    split_ifs at h with hw hr <;> cases h
    · exact .inl ⟨_, _, rfl⟩
    · exact .inl ⟨_, _, rfl⟩
    · exact .inr ⟨_, _, _, _, _, .inl ⟨rfl, by simpa [widthInRange] using hw⟩, .inl rfl, rfl⟩
  | mul =>
    cases h
    exact acceptMultiply_effect ha
  | muls =>
    cases h
    exact acceptMultiply_effect ha
  | _ => cases hi

/-- Everything a `CMD` write can do (R23, R235): be ignored, record the fault of a word that is no command, or run the command. -/
theorem writeCmd_next {v : Word} {s t : State} (h : writeCmd v s = .next t) :
    t = s ∨ AcceptsCommand s ∧
      ((∃ c sel, t = raiseFault c sel s) ∨ ∃ i, i.isCommand = true ∧ exec i s = .next t) := by
  cases hn : commandsIgnored s with
  | true =>
    rw [writeCmd_ignored hn] at h
    cases h
    exact .inl rfl
  | false =>
    have ha := commandsIgnored_eq_false.1 hn
    cases hd : decodeCmd v with
    | ok i => exact .inr ⟨ha, .inr ⟨i, decodeCmd_isCommand hd, writeCmd_decoded ha hd ▸ h⟩⟩
    | error e =>
      simp only [writeCmd, hn, hd, Bool.false_eq_true, if_false] at h
      cases h
      exact .inr ⟨ha, .inl ⟨_, _, rfl⟩⟩

/-- Everything a host write can do (20_memory R62, R64, R73): change at most a scalar register, or be a `CMD` write. -/
theorem hostWrite_next {a : HostAddr} {v : Word} {s t : State} (h : hostWrite a v s = .next t) :
    t = { s with sa := t.sa, sb := t.sb } ∨ writeCmd v s = .next t := by
  simp only [hostWrite] at h
  split_ifs at h
  · cases h
    exact .inl rfl
  · exact .inr h
  · cases h
    exact .inl rfl
  · cases h
    exact .inl rfl
  · cases h
    exact .inl rfl

/-! ### Where an instruction comes to run -/

/-- The point unit performs the micro-operation its word decodes to (43_point_ops R212). -/
theorem pointUnit_decoded {w : Word} {i : Instr} {s : State} (h : decodeUop w = .ok i) : pointUnit w s = exec i s := by
  simp [pointUnit, h]

/-- A word at the point unit that answers a next state changes the slots and `UOPS` alone (R212). -/
theorem pointUnit_next {w : Word} {s t : State} (h : pointUnit w s = .next t) :
    t = { s with slots := t.slots, uops := t.uops } := by
  cases hd : decodeUop w with
  | ok i =>
    rw [pointUnit_decoded hd] at h
    obtain ⟨-, g, rfl, -, -⟩ := exec_uop_next (decodeUop_isUop hd) h
    rfl
  | error e => simp [pointUnit, hd] at h

/-- A word decodes as a command or as a micro-operation, by its format (30_encoding R90). -/
theorem decodeWord_eq_ok {w : Word} {i : Instr} :
    decodeWord w = .ok i ↔ isFormatH w = true ∧ decodeCmd w = .ok i ∨ isFormatH w = false ∧ decodeUop w = .ok i := by
  cases hf : isFormatH w with
  | true => cases hd : decodeCmd w <;> simp [decodeWord, hf, hd]
  | false => cases hd : decodeUop w <;> simp [decodeWord, hf, hd]

/-- The table's reading of a 32-bit word is `decodeWord`. -/
theorem decodeTableWord_eq_some {w : Nat} {i : Instr} :
    decodeTableWord 32 w = some i ↔ decodeWord (BitVec.ofNat 32 (w % 2 ^ 32)) = .ok i := by
  unfold decodeTableWord
  cases decodeWord (BitVec.ofNat 32 (w % 2 ^ 32)) <;> simp

/-- A step in which the host writes a command's word to `CMD` of a unit that accepts it is `exec` of the command (R23, R64). -/
theorem step_cmdWrite {s : State} {w : Word} {i : Instr} {rest : List HostAction} (hp : s.port = none)
    (hh : s.host = .write 0x000 w :: rest) (ha : AcceptsCommand s) (hd : decodeCmd w = .ok i) :
    step s = exec i { s with host := rest } := by
  obtain ⟨hb, he⟩ := ha
  calc step s = hostWrite 0x000 w { s with host := rest } := step_host hp hh
    _ = writeCmd w { s with host := rest } := hostWrite_cmd hb
    _ = exec i { s with host := rest } := writeCmd_decoded ⟨hb, he⟩ hd

/-- A placed word of format H is the host's next `CMD` write. -/
theorem placeWord_formatH {w : Word} (h : isFormatH w = true) (s : State) :
    placeWord w s = { s with port := none, host := .write 0x000 w :: s.host } := by
  simp [placeWord, h]

/-- A placed word of format P waits at the point unit. -/
theorem placeWord_formatP {w : Word} (h : isFormatH w = false) (s : State) :
    placeWord w s = { s with port := some w } := by
  simp [placeWord, h]

/-! ### What a unit step can do -/

/-- The combination of a digit moves to a sub-step, a skip counted or not (42_multiplier R182, R183). -/
theorem combineRule_writes (sel : Sel) (conv next : LoopSub) (s : State) :
    ∃ l u, (combineRule sel conv next s).2 = gotoSub l u ∧ (u = s ∨ u = countSkip s) := by
  unfold combineRule
  split
  · exact ⟨_, _, rfl, .inl rfl⟩
  · exact ⟨_, _, rfl, .inl rfl⟩
  · exact ⟨_, _, rfl, .inr rfl⟩

/-- A rule of the loop writes `ITER`, `SKIP` and the control position alone, and it stays in the loop or leaves it for `M_OUT` (R179 to
R190). -/
theorem loopRule_writes (s : State) (hq : s.seq.q = .mLoop) :
    (loopRule s).2 = { s with iter := (loopRule s).2.iter, skip := (loopRule s).2.skip, seq := (loopRule s).2.seq } ∧
      ((loopRule s).2.seq.q = .mLoop ∨ (loopRule s).2.seq.q = .mOut) := by
  unfold loopRule
  split
  · exact ⟨rfl, .inl hq⟩
  · obtain ⟨l, u, e, rfl | rfl⟩ := combineRule_writes .a .lAcv .lB s <;> rw [e] <;> exact ⟨rfl, .inl hq⟩
  · exact ⟨rfl, .inl hq⟩
  · obtain ⟨l, u, e, rfl | rfl⟩ := combineRule_writes .b .lBcv .lNext s <;> rw [e] <;> exact ⟨rfl, .inl hq⟩
  · exact ⟨rfl, .inl hq⟩
  · unfold nextRule
    split_ifs
    · exact ⟨rfl, .inr rfl⟩
    · exact ⟨rfl, .inl hq⟩

/-- The frame of a sequencer rule's own writes: `STATUS`, the counters and the control position alone (R176 to R191). -/
theorem isRule_frame {s : State} {r : Option Instr × State} (h : IsRule s r) :
    r.2 = { s with
      status := r.2.status, iter := r.2.iter, skip := r.2.skip, score := r.2.score, seq := r.2.seq } := by
  rcases h with ⟨-, rfl⟩ | ⟨-, rfl⟩ | ⟨-, rfl⟩ | ⟨hq, rfl⟩ | ⟨-, rfl⟩
  · unfold tableRule
    split_ifs <;> rfl
  · rfl
  · rfl
  · rw [(loopRule_writes s hq).1]
  · rfl

/-- The control position a sequencer rule leaves (R176 to R191): the next entry of the table build; another phase after it; or the end of the
command. -/
theorem isRule_control {s : State} {r : Option Instr × State} (h : IsRule s r) :
    (r.2.status = s.status ∧ r.2.seq.q = .mTbl ∧ s.seq.q = .mTbl ∧ s.seq.tstep ≠ 22 ∧
        r.2.seq.tstep = s.seq.tstep + 1) ∨
      (r.2.status = s.status ∧ (r.2.seq.q = .mScan ∨ r.2.seq.q = .mInit ∨ r.2.seq.q = .mLoop ∨ r.2.seq.q = .mOut)) ∨
      (r.2.status = { s.status with busy := false, done := true } ∧ r.2.seq.q = .idle) := by
  rcases h with ⟨hq, rfl⟩ | ⟨-, rfl⟩ | ⟨-, rfl⟩ | ⟨hq, rfl⟩ | ⟨-, rfl⟩
  · unfold tableRule
    split_ifs with h22
    · exact .inr (.inl ⟨rfl, .inl rfl⟩)
    · exact .inl ⟨rfl, hq, hq, h22, rfl⟩
  · exact .inr (.inl ⟨rfl, .inr (.inl rfl)⟩)
  · exact .inr (.inl ⟨rfl, .inr (.inr (.inl rfl))⟩)
  · obtain ⟨hw, hq'⟩ := loopRule_writes s hq
    have hs := congrArg State.status hw
    exact .inr (.inl ⟨hs, .inr (.inr hq')⟩)
  · exact .inr (.inr ⟨rfl, rfl⟩)

/-- The operands and the host's data stand outside what an encoder step, a rule and a micro-operation write (10_state R21, R22). -/
theorem unitStep_keeps_operands {s t : State} (h : unitStep s = .next t) :
    t.sa = s.sa ∧ t.sb = s.sb ∧ t.slots.ain = s.slots.ain ∧ t.host = s.host ∧ t.seen = s.seen ∧ t.draws = s.draws := by
  obtain ⟨rfl, -⟩ | ⟨-, -, rfl⟩ | ⟨-, r, hr, hi⟩ := unitStep_next h
  · exact ⟨rfl, rfl, rfl, rfl, rfl, rfl⟩
  · obtain ⟨ha, hb, hslots, -, hhost, hseen, hdraws, -⟩ := encoderStep_keeps s
    exact ⟨ha, hb, congrArg SlotFile.ain hslots, hhost, hseen, hdraws⟩
  · have hf := isRule_frame hr
    have hain : r.2.slots.ain = s.slots.ain := by rw [hf]
    obtain ⟨-, rfl⟩ | ⟨i, g, -, -, rfl, hg⟩ := issueRule_next (isRule_isUop hr) hi
    · rw [hf]
      exact ⟨rfl, rfl, rfl, rfl, rfl, rfl⟩
    · rw [hf]
      exact ⟨rfl, rfl, hg.trans hain, rfl, rfl, rfl⟩

/-! ### Empty slots and the `STATUS` word -/

/-- Performing a legal micro-operation with a source that holds no value (10_state R42). -/
theorem performUop_of_none {i : Instr} {f : Option SlotFile} {s : State} (hw : i.wellFormed = true) (hf : f = none) :
    performUop i f s = .fault .emptySlot := by
  simp [performUop, uopLegal, hw, hf]

/-- A slot that the micro-operation reads holds no value. -/
def SourceEmpty (f : SlotFile) : Instr → Prop
  | .dbl _ src1 _ => slotPD f src1 = none
  | .add _ src1 src2 => slotPD f src1 = none ∨ slotPS f src2 = none
  | .sub _ src1 src2 => slotPD f src1 = none ∨ slotPS f src2 = none
  | .todbl _ src1 _ => slotPI f src1 = none
  | .tosto _ src1 _ => slotPD f src1 = none
  | .toext _ src1 _ => slotPD f src1 = none
  | _ => False

/-- A legal micro-operation with a source that holds no value is the fault `emptySlot` (R42, R240). -/
theorem exec_sourceEmpty {i : Instr} {s : State} (hw : i.wellFormed = true) (h : SourceEmpty s.slots i) :
    exec i s = .fault .emptySlot := by
  have twoSources {x : Option PD} {y : Option PS} {k : PD → PS → SlotFile} (h : x = none ∨ y = none) :
      (x.bind fun p => y.map fun t => k p t) = none := by
    rcases h with rfl | rfl
    · rfl
    · cases x <;> rfl
  cases i with
  | dbl _ _ _ => exact performUop_of_none hw (Option.map_eq_none_iff.2 h)
  | add _ _ _ => exact performUop_of_none hw (twoSources h)
  | sub _ _ _ => exact performUop_of_none hw (twoSources h)
  | todbl _ _ _ => exact performUop_of_none hw (Option.map_eq_none_iff.2 h)
  | tosto _ _ _ => exact performUop_of_none hw (Option.map_eq_none_iff.2 h)
  | toext _ _ _ => exact performUop_of_none hw (Option.map_eq_none_iff.2 h)
  | _ => cases h

/-- Bits 31:9 of the `STATUS` word are no storage (10_state R24). -/
theorem getLsbD_statusWord_of_ge (t : Status) {i : Nat} (h : 9 ≤ i) : (statusWord t).getLsbD i = false := by
  have hcode : t.errCode.getLsbD (i - 4) = false := BitVec.getLsbD_of_ge _ _ (by omega)
  have h0 : i ≠ 0 := by omega
  have h1 : i - 1 ≠ 0 := by omega
  have h2 : i - 2 ≠ 0 := by omega
  have h8 : i - 8 ≠ 0 := by omega
  simp [statusWord, hcode, h0, h1, h2, h8]

/-! ### The invariant -/

/-- The invariant speaks of `STATUS`, the digit memories, the encoder and the sequencer alone. -/
theorem MachineInv.congr {s t : State} (h : MachineInv s) (hs : t.status = s.status) (hm : t.mem = s.mem)
    (he : t.enc = s.enc) (hq : t.seq = s.seq) : MachineInv t where
  status := by simpa only [StatusInv, hs, hq] using h.status
  enc := by simpa only [EncInv, Encoding, he, hq] using h.enc
  table := by simpa only [TableInv, hq] using h.table
  mem := hm ▸ h.mem
  digits := by simpa only [DigitsInv, hm] using h.digits

/-- Right after reset the unit is idle, no encoding runs and no digit is stored (R45). -/
theorem machineInv_reset : MachineInv State.reset where
  status := by simp [StatusInv, State.reset]
  enc := by simp [EncInv, Encoding, State.reset]
  table := by simp [TableInv, State.reset]
  mem := wf_reset
  digits := by simp [DigitsInv, State.reset]

/-- A unit that accepts a command is in phase `IDLE`. -/
theorem StatusInv.idle_of_accepts {s : State} (h : StatusInv s) (ha : AcceptsCommand s) : s.seq.q = .idle := by
  by_contra hq
  exact absurd (h.1.2 hq) (by simp [ha.1])

/-- No code is recorded while `ERR = 0` (10_state R24). -/
theorem StatusInv.no_code {s : State} (h : StatusInv s) (he : s.status.err = false) :
    s.status.errCode = 0 ∧ s.status.errSel = .a := by
  obtain ⟨-, -, -, -, hcode⟩ := h
  exact hcode he

/-- A busy unit has neither `DONE` nor `ERR`, and no code is recorded (10_state R24). -/
theorem StatusInv.of_busy {s : State} (h : StatusInv s) (hb : s.status.busy = true) :
    s.status.done = false ∧ s.status.err = false ∧ s.status.errCode = 0 ∧ s.status.errSel = .a := by
  obtain ⟨-, hbd, hbe, -, hcode⟩ := h
  have he : s.status.err = false := by simpa [hb] using hbe
  exact ⟨by simpa [hb] using hbd, he, hcode he⟩

/-- A fault taken by a unit that accepts a command keeps the invariant (60_exceptions R236). -/
theorem MachineInv.after_raiseFault {s : State} (h : MachineInv s) (ha : AcceptsCommand s) (c : FaultCause) (sel : Sel) :
    MachineInv (raiseFault c sel s) where
  status := by simp [StatusInv, raiseFault, ha.1, h.status.idle_of_accepts ha]
  enc := h.enc
  table := h.table
  mem := h.mem
  digits := h.digits

/-- An encoding that has just started is at position 0, with its width and an empty zero run (40_naf_encoder R124). -/
theorem encInv_startEncoding {s : State} {sel : Sel} {w : BitVec 4} (hw : legalWidth w = true)
    (hA : s.seq.q = .mEncA → sel = .a ∧ w = Config.wa) (hB : s.seq.q = .mEncB → sel = .b ∧ w = Config.wb) :
    EncInv (startEncoding sel w s) := by
  obtain ⟨lo, -⟩ := (legalWidth_iff w).1 hw
  intro _
  refine ⟨by simp, hw, ?_, hA, hB⟩
  show 0 < w.toNat
  omega

/-- The start of a command keeps the invariant (R120, R173). -/
theorem MachineInv.after_startCommand {s : State} (h : MachineInv s) (ha : AcceptsCommand s) {q : Phase} {sel : Sel}
    {w : BitVec 4} (hc : CommandEncoding q sel w) (diag : Bool) :
    MachineInv (startEncoding sel w (beginCommand q diag s)) := by
  obtain ⟨hi, hd⟩ : q ≠ .idle ∧ q ≠ .mTbl := by
    rcases hc with ⟨rfl, -⟩ | ⟨rfl, -⟩ <;> decide
  constructor
  case status => simpa [StatusInv, ha.2, hi] using h.status.no_code ha.2
  case enc =>
    rcases hc with ⟨rfl, hw⟩ | ⟨rfl, rfl, rfl⟩
    · exact encInv_startEncoding hw (by simp) (by simp)
    · exact encInv_startEncoding rfl (by simp) (by simp)
  case table => exact fun hq => absurd hq hd
  case mem => exact h.mem
  case digits => exact h.digits

/-- Every command keeps the invariant. -/
theorem MachineInv.after_exec_command {i : Instr} {s t : State} (h : MachineInv s) (ha : AcceptsCommand s)
    (hi : i.isCommand = true) (he : exec i s = .next t) : MachineInv t := by
  obtain ⟨c, sel, rfl⟩ | ⟨q, diag, sel, w, u, hc, rfl | rfl, rfl⟩ := exec_command_effect hi ha he
  · exact h.after_raiseFault ha c sel
  · exact h.after_startCommand ha hc diag
  · exact (h.congr rfl rfl rfl rfl : MachineInv (clearCounters s)).after_startCommand ha hc diag

/-- Every host write keeps the invariant. -/
theorem MachineInv.after_hostWrite {a : HostAddr} {v : Word} {s t : State} (h : MachineInv s)
    (hw : hostWrite a v s = .next t) : MachineInv t := by
  rcases hostWrite_next hw with ht | hc
  · exact ht ▸ h.congr rfl rfl rfl rfl
  obtain rfl | ⟨ha, ⟨c, sel, rfl⟩ | ⟨i, hi, he⟩⟩ := writeCmd_next hc
  · exact h
  · exact h.after_raiseFault ha c sel
  · exact h.after_exec_command ha hi he

/-- A position written keeps the digit memories canonical and every digit 0 or odd (30_encoding R95, 40_naf_encoder R127). -/
theorem writePosition_digits {s : State} (h : MachineInv s) (hE : Encoding s) :
    Memory.wf (writePosition s).mem = true ∧ DigitsInv (writePosition s) := by
  obtain ⟨-, hw, -⟩ := h.enc hE
  refine ⟨wf_writeDigit _ _ _ h.mem, fun c hc => ?_⟩
  rcases mem_memWrite hc with rfl | hc
  · exact recode_pattern hw
  · exact h.digits c hc

/-- A position before the last keeps the invariant (R125 to R127). -/
theorem MachineInv.after_writePosition {s : State} (h : MachineInv s) (hE : Encoding s) (hl : s.enc.epos ≠ 255) :
    MachineInv (writePosition s) := by
  obtain ⟨hp, hw, hz, hA, hB⟩ := h.enc hE
  obtain ⟨hm, hd⟩ := writePosition_digits h hE
  refine ⟨h.status, fun _ => ⟨?_, hw, recode_zeros hw hz, hA, hB⟩, h.table, hm, hd⟩
  show (s.enc.epos + 1).toNat < 256
  bv_omega

/-- An encoder step keeps the invariant (R125 to R128, 42_multiplier R174, R175). -/
theorem MachineInv.after_encoderStep {s : State} (h : MachineInv s) (hb : s.status.busy = true) (hE : Encoding s) :
    MachineInv (encoderStep s) := by
  by_cases hl : s.enc.epos = 255
  case neg =>
    rw [encoderStep, if_neg hl]
    exact h.after_writePosition hE hl
  obtain ⟨hm, hd⟩ := writePosition_digits h hE
  obtain ⟨hdone, herr, hcode, hsel⟩ := h.status.of_busy hb
  simp only [encoderStep, hl, if_true]
  rcases hE with hq | hq | hq <;> simp only [endEncoding, writePosition_seq, hq]
  · exact ⟨by simp [StatusInv, herr, hcode, hsel], by simp [EncInv, Encoding], by simp [TableInv], hm, hd⟩
  · exact ⟨by simp [StatusInv, hb, hdone, herr, hcode, hsel], encInv_startEncoding rfl (by simp) (by simp),
      by simp [TableInv], hm, hd⟩
  · exact ⟨by simp [StatusInv, hb, hdone, herr, hcode, hsel], by simp [EncInv, Encoding], by simp [TableInv], hm, hd⟩

/-- A sequencer rule's own writes keep the invariant (R176 to R191). -/
theorem MachineInv.after_rule {s : State} {r : Option Instr × State} (h : MachineInv s) (hb : s.status.busy = true)
    (hr : IsRule s r) : MachineInv r.2 := by
  have hmem := congrArg State.mem (isRule_frame hr)
  obtain ⟨hdone, herr, hcode, hsel⟩ := h.status.of_busy hb
  refine ⟨?_, ?_, ?_, hmem ▸ h.mem, by simpa only [DigitsInv, hmem] using h.digits⟩
  · rcases isRule_control hr with ⟨hs, hq, -⟩ | ⟨hs, hq | hq | hq | hq⟩ | ⟨hs, hq⟩ <;>
      simp [StatusInv, hs, hq, hb, hdone, herr, hcode, hsel]
  · rcases isRule_control hr with ⟨-, hq, -⟩ | ⟨-, hq | hq | hq | hq⟩ | ⟨-, hq⟩ <;> simp [EncInv, Encoding, hq]
  · rcases isRule_control hr with ⟨-, hq, hq', h22, ht⟩ | ⟨-, hq | hq | hq | hq⟩ | ⟨-, hq⟩
    case inl =>
      have hle := h.table hq'
      intro _
      rw [ht]
      bv_omega
    all_goals simp [TableInv, hq]

/-- A unit step keeps the invariant. -/
theorem MachineInv.after_unitStep {s t : State} (h : MachineInv s) (hu : unitStep s = .next t) : MachineInv t := by
  obtain ⟨rfl, -⟩ | ⟨hb, hE, rfl⟩ | ⟨hb, r, hr, hi⟩ := unitStep_next hu
  · exact h
  · exact h.after_encoderStep hb hE
  · have hr' := h.after_rule hb hr
    obtain ⟨-, rfl⟩ | ⟨i, g, -, -, rfl, -⟩ := issueRule_next (isRule_isUop hr) hi
    · exact hr'
    · exact hr'.congr rfl rfl rfl rfl

/-- A host move keeps the invariant. -/
theorem MachineInv.after_hostMove {a : HostAction} {s t : State} (h : MachineInv s) (hm : hostMove a s = .next t) :
    MachineInv t := by
  cases a with
  | write addr v => exact h.after_hostWrite hm
  | read addr =>
    cases hm
    exact h.congr rfl rfl rfl rfl
  | setPoint p =>
    simp only [hostMove, hostSetPoint] at hm
    split_ifs at hm
    cases hm
    exact h.congr rfl rfl rfl rfl
  | readPoint =>
    simp only [hostMove, hostReadPoint] at hm
    split_ifs at hm
    split at hm <;> cases hm
    exact h.congr rfl rfl rfl rfl
  | poll =>
    simp only [hostMove, hostPoll] at hm
    split_ifs at hm
    · exact (h.congr rfl rfl rfl rfl : MachineInv { s with host := .poll :: s.host }).after_unitStep hm
    · cases hm
      exact h.congr rfl rfl rfl rfl
  | tick => exact h.after_unitStep hm
  | reset =>
    cases hm
    exact machineInv_reset.congr rfl rfl rfl rfl

/-- A step of the machine keeps the invariant: a word at the point unit, a host move, or a unit step. -/
theorem MachineInv.after_step {s t : State} (h : MachineInv s) (hs : step s = .next t) : MachineInv t := by
  cases hp : s.port with
  | some w =>
    rw [step_port hp] at hs
    exact pointUnit_next hs ▸ h.congr rfl rfl rfl rfl
  | none =>
    cases hh : s.host with
    | cons a rest =>
      rw [step_host hp hh] at hs
      exact (h.congr rfl rfl rfl rfl : MachineInv { s with host := rest }).after_hostMove hs
    | nil =>
      rw [step_unit hp hh] at hs
      exact h.after_unitStep hs

/-! ### The obligations -/

/-- Settles O60: each of the three kinds of step keeps the invariant. -/
theorem everyStepKeepsTheInvariant : Obligations.EveryStepKeepsTheInvariant :=
  fun _ _ h hs => h.after_step hs

/-- Settles O37, case by case of what a unit step can be. -/
theorem unitStepKeepsOperands : Obligations.UnitStepKeepsOperands :=
  fun _ _ h => unitStep_keeps_operands h

/-- Settles O10: both tests are `commandsIgnored`. -/
theorem commandsAreIgnoredWhileBusyOrFaulted : Obligations.CommandsAreIgnoredWhileBusyOrFaulted := by
  intro s v i h
  have hn : commandsIgnored s = true := by simpa [commandsIgnored] using h
  exact ⟨writeCmd_ignored hn, fun hi => exec_command_ignored hi hn⟩

/-- Settles O21: `AIN`, then `ACC`, `TMP`, `E`, and a table entry together with its first operand. -/
theorem emptySourceSlotFaults : Obligations.EmptySourceSlotFaults := by
  intro s
  refine ⟨fun h => ⟨?_, ?_⟩, fun h => ⟨?_, ?_, fun j => ⟨?_, ?_⟩⟩, fun h => ⟨?_, ?_⟩, fun h j hj => ?_,
    fun j h => ⟨?_, ?_⟩, fun j hj h => ?_⟩
  · exact exec_sourceEmpty rfl h
  · exact exec_sourceEmpty rfl h
  · exact exec_sourceEmpty rfl h
  · exact exec_sourceEmpty rfl h
  · exact exec_sourceEmpty rfl (.inl h)
  · exact exec_sourceEmpty rfl (.inl h)
  · exact exec_sourceEmpty rfl h
  · exact exec_sourceEmpty rfl h
  · exact exec_sourceEmpty (decide_eq_true hj) h
  · exact exec_sourceEmpty rfl h
  · exact exec_sourceEmpty rfl h
  · exact exec_sourceEmpty (decide_eq_true hj) h

/-- Settles O24: bits 31:9 by `getLsbD_statusWord_of_ge`, each other field bit by bit. -/
theorem statusWordHasTheFieldsOfR24 : Obligations.StatusWordHasTheFieldsOfR24 := by
  intro t
  have code : (statusWord t).extractLsb' 4 4 = t.errCode := by
    ext i hi
    interval_cases i <;> simp [statusWord]
  have rest : (statusWord t).extractLsb' 9 23 = 0 := by
    ext i hi
    simpa using getLsbD_statusWord_of_ge t (Nat.le_add_right 9 i)
  refine ⟨?_, ?_, ?_, ?_, code, ?_, rest⟩ <;> simp [statusWord]

/-- Settles O30: each value is read off `State.reset`. -/
theorem resetValuesOfR45 : Obligations.ResetValuesOfR45 :=
  ⟨rfl, rfl, rfl, rfl, rfl, rfl, rfl, memRead_nil, rfl, by decide, rfl, rfl, rfl, rfl, rfl, rfl⟩

/-- Settles O32, through the `CMD` register of the host bus. -/
theorem stepRunsTheDecodedCommand : Obligations.StepRunsTheDecodedCommand :=
  fun _ _ _ _ hp hh ha hd => step_cmdWrite hp hh ha hd

/-- Settles O34: a word of format H is written to `CMD`, one of format P is performed at the point unit. -/
theorem placedWordRunsNext : Obligations.PlacedWordRunsNext := by
  intro s w i _ hw
  unfold State.withFetchWord
  obtain ⟨hf, hd⟩ | ⟨hf, hd⟩ := decodeWord_eq_ok.1 (decodeTableWord_eq_some.1 hw)
  · refine ⟨fun _ ha => ?_, fun hi => by simp [decodeCmd_isCommand hd] at hi⟩
    rw [placeWord_formatH hf]
    exact step_cmdWrite rfl rfl ha hd
  · refine ⟨fun hi => by simp [decodeUop_isUop hd] at hi, fun _ => ?_⟩
    rw [placeWord_formatP hf, step_port rfl]
    exact pointUnit_decoded hd

/-- Settles O59. The base case of O60. -/
theorem invariantHoldsAtReset : Obligations.InvariantHoldsAtReset := machineInv_reset

end Sys2Proof.Machine
end

section
/-! PROOFS. The family of spec/20_memory.md: the host's address map, the words of a scalar, `HostRead` and `HostWrite`. -/

namespace Sys2Proof.Machine

/-! ### The words of a scalar -/

/-- A scalar with word `k` replaced, bit by bit: bits `32k+31` to `32k` are those of the word, the others are kept (20_memory R64, R65). -/
theorem getLsbD_putScalarWord (v : Scalar) {k : Nat} (hk : k < 8) (w : Word) (n : Nat) :
    (putScalarWord v k w).getLsbD n =
      if 32 * k ≤ n ∧ n < 32 * k + 32 then w.getLsbD (n - 32 * k) else v.getLsbD n := by
  simp only [putScalarWord, BitVec.getLsbD_or, BitVec.getLsbD_and, BitVec.getLsbD_not, BitVec.getLsbD_shiftLeft,
    BitVec.getLsbD_setWidth, BitVec.getLsbD_allOnes]
  by_cases hn : n < 256
  case neg => simp [hn, show ¬ n < 32 * k + 32 by omega, BitVec.getLsbD_of_ge v n (by omega)]
  rcases lt_or_ge n (32 * k) with lo | lo
  · simp [hn, lo, Nat.not_le.2 lo]
  rcases lt_or_ge n (32 * k + 32) with hi | hi
  · simp [hn, lo, hi, Nat.not_lt.2 lo, show n - 32 * k < 32 by omega, show n - 32 * k < 256 by omega]
  · have hw : 32 ≤ n - 32 * k := by omega
    simp [hn, lo, Nat.not_lt.2 hi, Nat.not_lt.2 hw, BitVec.getLsbD_of_ge w _ hw]

/-- The word written to a scalar reads back. -/
theorem scalarWord_putScalarWord_same (v : Scalar) {k : Nat} (hk : k < 8) (w : Word) :
    scalarWord (putScalarWord v k w) k = w := by
  apply BitVec.eq_of_getLsbD_eq
  intro i hi
  simp [scalarWord, getLsbD_putScalarWord v hk, hi]

/-- Every other word of the scalar is kept. -/
theorem scalarWord_putScalarWord_other (v : Scalar) {j k : Nat} (hk : k < 8) (hj : j ≠ k) (w : Word) :
    scalarWord (putScalarWord v k w) j = scalarWord v j := by
  apply BitVec.eq_of_getLsbD_eq
  intro i hi
  have hb : ¬ (32 * k ≤ 32 * j + i ∧ 32 * j + i < 32 * k + 32) := by omega
  simp [scalarWord, getLsbD_putScalarWord v hk, hb]

/-! ### The address map -/

/-- The words of `SA` stand from `0x010` on (R61). -/
theorem toNat_scalarAddr_a {k : Nat} (hk : k < 8) : (scalarAddr .a k).toNat = 0x010 + k := by
  simp only [scalarAddr, BitVec.toNat_ofNat]
  omega

/-- The words of `SB` stand from `0x018` on (R61). -/
theorem toNat_scalarAddr_b {k : Nat} (hk : k < 8) : (scalarAddr .b k).toNat = 0x018 + k := by
  simp only [scalarAddr, BitVec.toNat_ofNat]
  omega

/-- A digit's word address is a host address: no bit of it is lost (R61). -/
theorem toNat_digitAddr (sel : Sel) (i : BitVec 8) : (BitVec.ofNat 10 (digitAddr sel i)).toNat = digitAddr sel i := by
  have := digitAddr_bounds sel i
  simp only [BitVec.toNat_ofNat]
  omega

/-! ### `HostRead` -/

/-- While the unit is idle every read follows the map (R63). -/
theorem hostReadWord_idle {s : State} (h : s.status.busy = false) (a : HostAddr) : hostReadWord a s = idleReadWord a s := by
  simp [hostReadWord, h]

/-- `STATUS` reads exactly, busy or not (R63, R73). -/
theorem hostReadWord_status (s : State) : hostReadWord 0x001 s = statusWord s.status := by
  simp [hostReadWord, idleReadWord]

/-- A scalar word reads its 32 bits (R65). -/
theorem idleReadWord_scalarAddr (sel : Sel) {k : Nat} (hk : k < 8) (s : State) :
    idleReadWord (scalarAddr sel k) s = scalarWord (scalarOf sel s) k := by
  cases sel with
  | a =>
    simp only [idleReadWord, toNat_scalarAddr_a hk]
    iterate 4 rw [if_neg (by omega)]
    rw [if_pos (by omega), Nat.add_sub_cancel_left, scalarOf]
  | b =>
    simp only [idleReadWord, toNat_scalarAddr_b hk]
    iterate 5 rw [if_neg (by omega)]
    rw [if_pos (by omega), Nat.add_sub_cancel_left, scalarOf]

/-- A digit reads its sign-extended byte (R66). -/
theorem idleReadWord_digitAddr (sel : Sel) (i : BitVec 8) (s : State) :
    idleReadWord (BitVec.ofNat 10 (digitAddr sel i)) s = digitWord (digitByte sel i s) := by
  have hi := i.isLt
  cases sel with
  | a =>
    have ha : (BitVec.ofNat 10 (digitAddr .a i)).toNat = 0x100 + i.toNat := toNat_digitAddr .a i
    simp only [idleReadWord, ha]
    iterate 6 rw [if_neg (by omega)]
    rw [if_pos (by omega), Nat.add_sub_cancel_left, BitVec.ofNat_toNat, BitVec.setWidth_eq]
  | b =>
    have ha : (BitVec.ofNat 10 (digitAddr .b i)).toNat = 0x200 + i.toNat := toNat_digitAddr .b i
    simp only [idleReadWord, ha]
    iterate 7 rw [if_neg (by omega)]
    rw [if_pos (by omega), Nat.add_sub_cancel_left, BitVec.ofNat_toNat, BitVec.setWidth_eq]

/-- An address outside the map reads 0 (R62). -/
theorem idleReadWord_unmapped {a : HostAddr}
    (h : 0x005 ≤ a.toNat ∧ a.toNat ≤ 0x00F ∨ 0x020 ≤ a.toNat ∧ a.toNat ≤ 0x0FF ∨ 0x300 ≤ a.toNat) (s : State) :
    idleReadWord a s = 0 := by
  unfold idleReadWord
  iterate 8 rw [if_neg (by omega)]

/-- A digit that has been written reads its stored byte, sign-extended (R66). -/
theorem idleReadWord_writtenDigit (sel : Sel) {i : BitVec 8} {v : Byte} {s : State}
    (h : memRead s.mem (digitAddr sel i) = some v) :
    idleReadWord (BitVec.ofNat 10 (digitAddr sel i)) s = v.signExtend 32 := by
  have hd : digitByte sel i s = v := by simp [digitByte, h]
  rw [idleReadWord_digitAddr, hd, digitWord]

/-! ### `HostWrite` -/

/-- While `BUSY = 1` a host write has no effect (R73). -/
theorem hostWrite_busy {s : State} (h : s.status.busy = true) (a : HostAddr) (v : Word) : hostWrite a v s = .next s := by
  simp [hostWrite, h]

/-- An address that is neither `CMD` nor a scalar word ignores writes (R62). -/
theorem hostWrite_readOnly {a : HostAddr} (h0 : a.toNat ≠ 0) (h : ¬ (0x010 ≤ a.toNat ∧ a.toNat ≤ 0x01F)) (v : Word)
    (s : State) : hostWrite a v s = .next s := by
  cases hb : s.status.busy with
  | true => exact hostWrite_busy hb a v
  | false =>
    simp only [hostWrite, hb, Bool.false_eq_true, if_false]
    iterate 3 rw [if_neg (by omega)]

/-- While the unit is idle a write to the address of a scalar word replaces that word (R64). -/
theorem hostWrite_scalarAddr (sel : Sel) {k : Nat} (hk : k < 8) (v : Word) {s : State} (hb : s.status.busy = false) :
    hostWrite (scalarAddr sel k) v s = .next (writeScalarWord sel k v s) := by
  cases sel with
  | a =>
    simp only [hostWrite, toNat_scalarAddr_a hk, hb, Bool.false_eq_true, if_false]
    rw [if_neg (by omega), if_pos (by omega), Nat.add_sub_cancel_left]
  | b =>
    simp only [hostWrite, toNat_scalarAddr_b hk, hb, Bool.false_eq_true, if_false]
    rw [if_neg (by omega), if_neg (by omega), if_pos (by omega), Nat.add_sub_cancel_left]

/-! ### The obligations -/

/-- Settles O27: a scalar word's address reaches `writeScalarWord`, which puts the word by `putScalarWord`. -/
theorem hostWriteReplacesOneScalarWord : Obligations.HostWriteReplacesOneScalarWord := by
  intro s v k hb hk
  exact ⟨⟨_, hostWrite_scalarAddr .a hk v hb, rfl, scalarWord_putScalarWord_same s.sa hk v,
      fun _ _ hj => scalarWord_putScalarWord_other s.sa hk hj v⟩,
    ⟨_, hostWrite_scalarAddr .b hk v hb, rfl, scalarWord_putScalarWord_same s.sb hk v,
      fun _ _ hj => scalarWord_putScalarWord_other s.sb hk hj v⟩⟩

/-- Settles O25, region by region of the map. -/
theorem idleHostReadFollowsTheMap : Obligations.IdleHostReadFollowsTheMap := by
  intro s hb
  simp only [hostReadWord_idle hb]
  refine ⟨rfl, rfl, rfl, rfl, rfl, fun k hk => ⟨?_, ?_⟩, fun i hi v => ?_, fun a h => ?_⟩
  · exact idleReadWord_scalarAddr .a hk s
  · exact idleReadWord_scalarAddr .b hk s
  · obtain ⟨j, rfl⟩ : ∃ j : BitVec 8, i = j.toNat := ⟨⟨i, hi⟩, rfl⟩
    exact ⟨idleReadWord_writtenDigit .a, idleReadWord_writtenDigit .b⟩
  · exact idleReadWord_unmapped h s

/-- Settles O26: the step is the host's read, and its word is `hostReadWord`. -/
theorem hostReadChangesNoUnitState : Obligations.HostReadChangesNoUnitState := by
  intro s a rest hp hh
  refine ⟨hostReadWord a { s with host := rest }, step_host hp hh, ?_, fun hb => hostReadWord_idle hb a⟩
  rintro rfl
  exact hostReadWord_status _

/-- Settles O28: the two reasons a write is dropped. -/
theorem droppedHostWrites : Obligations.DroppedHostWrites := by
  rintro s a v (hb | ⟨h0, h⟩)
  · exact hostWrite_busy hb a v
  · exact hostWrite_readOnly h0 h v s

end Sys2Proof.Machine
end

section
/-! PROOFS. The family of spec/30_encoding.md, the words: the fields of the two formats, decoding as the inverse of `encode`, the words the
unit takes and issues (R92 to R99), and the refusal of every other. -/

namespace Sys2Proof

/-! ### The fields of a word -/

/-- A word is determined by the fields of format H (30_encoding R91). -/
theorem eq_of_fieldsH {v w : Word} (hop : v.extractLsb' 0 4 = w.extractLsb' 0 4)
    (hwidth : v.extractLsb' 4 4 = w.extractLsb' 4 4) (hsel : v[8] = w[8])
    (hrest : v.extractLsb' 9 23 = w.extractLsb' 9 23) : v = w := by
  have hbit : v.extractLsb' 8 1 = w.extractLsb' 8 1 := by
    ext i hi
    simpa [show i = 0 by omega, ← BitVec.getLsbD_eq_getElem] using hsel
  have hop := congrArg BitVec.toNat hop
  have hwidth := congrArg BitVec.toNat hwidth
  have hbit := congrArg BitVec.toNat hbit
  have hrest := congrArg BitVec.toNat hrest
  simp only [BitVec.extractLsb'_toNat, Nat.shiftRight_eq_div_pow] at hop hwidth hbit hrest
  apply BitVec.eq_of_toNat_eq
  omega

/-- A word is determined by `OP` and the bits above it (R93). -/
theorem eq_of_op_rest {v w : Word} (hop : v.extractLsb' 0 4 = w.extractLsb' 0 4)
    (hrest : v.extractLsb' 4 28 = w.extractLsb' 4 28) : v = w := by
  have hop := congrArg BitVec.toNat hop
  have hrest := congrArg BitVec.toNat hrest
  simp only [BitVec.extractLsb'_toNat, Nat.shiftRight_eq_div_pow] at hop hrest
  apply BitVec.eq_of_toNat_eq
  omega

/-- A word is determined by the fields of format P (R97). -/
theorem eq_of_fieldsP {v w : Word} (hpop : v.extractLsb' 28 4 = w.extractLsb' 28 4)
    (hrsvd : v.extractLsb' 21 7 = w.extractLsb' 21 7) (hdst : v.extractLsb' 14 7 = w.extractLsb' 14 7)
    (hsrc1 : v.extractLsb' 7 7 = w.extractLsb' 7 7) (hsrc2 : v.extractLsb' 0 7 = w.extractLsb' 0 7) : v = w := by
  have hpop := congrArg BitVec.toNat hpop
  have hrsvd := congrArg BitVec.toNat hrsvd
  have hdst := congrArg BitVec.toNat hdst
  have hsrc1 := congrArg BitVec.toNat hsrc1
  have hsrc2 := congrArg BitVec.toNat hsrc2
  simp only [BitVec.extractLsb'_toNat, Nat.shiftRight_eq_div_pow] at hpop hrsvd hdst hsrc1 hsrc2
  apply BitVec.eq_of_toNat_eq
  omega

/-- The assembled fields of an `ENC` word (R92). -/
theorem fields_enc (w : BitVec 4) (sel : Sel) :
    (encode (.enc w sel)).extractLsb' 0 4 = 1 ∧ (encode (.enc w sel)).extractLsb' 4 4 = w ∧
      (encode (.enc w sel))[8] = selBit sel ∧ (encode (.enc w sel)).extractLsb' 9 23 = 0 := by
  cases sel <;> (revert w; decide)

@[simp] theorem selOfBit_selBit (sel : Sel) : selOfBit (selBit sel) = sel := by cases sel <;> rfl

@[simp] theorem selBit_selOfBit (b : Bool) : selBit (selOfBit b) = b := by cases b <;> rfl

/-! ### Format H -/

/-- The word of a command decodes to the command. -/
theorem decodeCmd_encode {i : Instr} (h : i.isCommand = true) : decodeCmd (encode i) = .ok i := by
  cases i with
  | enc w sel =>
    obtain ⟨hop, hwidth, hsel, hrest⟩ := fields_enc w sel
    simp [decodeCmd, hop, hwidth, hsel, hrest]
  | mul => rfl
  | muls => rfl
  | _ => cases h

/-- A word that decodes as a command is the command's word: `OP`, the select and width, and the reserved bits
fix every bit. -/
theorem encode_of_decodeCmd {w : Word} {i : Instr} (h : decodeCmd w = .ok i) : encode i = w := by
  simp only [decodeCmd] at h
  split_ifs at h with hop hrest hop hrest hop hrest <;> cases h
  · obtain ⟨eop, ewidth, esel, erest⟩ := fields_enc (w.extractLsb' 4 4) (selOfBit w[8])
    exact eq_of_fieldsH (eop.trans hop.symm) ewidth (esel.trans (selBit_selOfBit _)) (erest.trans hrest.symm)
  · exact eq_of_op_rest hop.symm hrest.symm
  · exact eq_of_op_rest hop.symm hrest.symm

/-- The words that decode as commands are the words of the commands (R91 to R94). -/
theorem decodeCmd_eq_ok_iff {w : Word} {i : Instr} : decodeCmd w = .ok i ↔ i.isCommand = true ∧ encode i = w := by
  constructor
  · intro h
    exact ⟨Machine.decodeCmd_isCommand h, encode_of_decodeCmd h⟩
  · rintro ⟨hi, rfl⟩
    exact decodeCmd_encode hi

/-! ### Format P -/

/-- The word of a micro-operation decodes to the micro-operation. -/
theorem decodeUop_encode {i : Instr} (h : i.isCommand = false) : decodeUop (encode i) = .ok i := by
  cases i with
  | enc _ _ => cases h
  | mul => cases h
  | muls => cases h
  | _ => exact decodeUop_uopWord _ _ _ _

/-- The code of a point operation assembles to the word of the operation (R98). -/
theorem encode_of_uopOfCode {pop : BitVec 4} {dst src1 src2 : Slot} {i : Instr}
    (h : uopOfCode pop dst src1 src2 = .ok i) : encode i = uopWord pop dst src1 src2 := by
  have code {n : Nat} (hn : pop.toNat = n) : pop = BitVec.ofNat 4 n := by
    subst hn
    simp
  unfold uopOfCode at h
  split at h <;> cases h <;>
  · rename_i hpop
    rw [code hpop]
    rfl

/-- A word whose reserved bits are 0 is assembled from its own fields (R97). -/
theorem uopWord_of_fields {w : Word} (hrsvd : w.extractLsb' 21 7 = 0) :
    uopWord (w.extractLsb' 28 4) (slotOfNumber (w.extractLsb' 14 7)) (slotOfNumber (w.extractLsb' 7 7))
      (slotOfNumber (w.extractLsb' 0 7)) = w := by
  obtain ⟨hpop, hzero, hdst, hsrc1, hsrc2⟩ := fields_uopWord (w.extractLsb' 28 4) (slotOfNumber (w.extractLsb' 14 7))
    (slotOfNumber (w.extractLsb' 7 7)) (slotOfNumber (w.extractLsb' 0 7))
  exact eq_of_fieldsP hpop (hzero.trans hrsvd.symm) (hdst.trans (slotNumber_slotOfNumber _))
    (hsrc1.trans (slotNumber_slotOfNumber _)) (hsrc2.trans (slotNumber_slotOfNumber _))

/-- A word that decodes as a micro-operation is the micro-operation's word. -/
theorem encode_of_decodeUop {w : Word} {i : Instr} (h : decodeUop w = .ok i) : encode i = w := by
  simp only [decodeUop] at h
  split_ifs at h with hrsvd
  rw [encode_of_uopOfCode h, uopWord_of_fields hrsvd]

/-- The words that decode as micro-operations are the words of the micro-operations (R97, R98). -/
theorem decodeUop_eq_ok_iff {w : Word} {i : Instr} : decodeUop w = .ok i ↔ i.isCommand = false ∧ encode i = w := by
  constructor
  · intro h
    exact ⟨Machine.decodeUop_isUop h, encode_of_decodeUop h⟩
  · rintro ⟨hi, rfl⟩
    exact decodeUop_encode hi

/-! ### Both formats -/

/-- The word of a command is of format H, that of a micro-operation is not: its `POP` is 1 to 7 (R98). -/
theorem isFormatH_encode (i : Instr) : isFormatH (encode i) = i.isCommand := by
  cases i with
  | enc w sel => cases sel <;> (revert w; decide)
  | mul => rfl
  | muls => rfl
  | _ => simp [isFormatH, encode, (fields_uopWord _ _ _ _).1, Instr.isCommand]

/-- The words that decode are the words of the instructions, each decoding to its own. -/
theorem decodeWord_eq_ok_iff {w : Word} {i : Instr} : decodeWord w = .ok i ↔ encode i = w := by
  rw [Machine.decodeWord_eq_ok, decodeCmd_eq_ok_iff, decodeUop_eq_ok_iff]
  constructor
  · rintro (⟨-, -, h⟩ | ⟨-, -, h⟩) <;> exact h
  · rintro rfl
    cases hi : i.isCommand <;> simp [isFormatH_encode, hi]

/-! ### The sixteen commands -/

/-- The legal window widths, 2 to 8 (R92). -/
def legalWidths : List (BitVec 4) := [2, 3, 4, 5, 6, 7, 8]

theorem mem_legalWidths {w : BitVec 4} : w ∈ legalWidths ↔ legalWidth w = true := by
  revert w
  decide

/-- The well-formed commands: `ENC` with a legal width on either scalar, `MUL` and `MULS` (R92, R93). -/
def legalCommands : List Instr := legalWidths.map (.enc · .a) ++ legalWidths.map (.enc · .b) ++ [.mul, .muls]

theorem mem_legalCommands {i : Instr} : i ∈ legalCommands ↔ i.isCommand = true ∧ i.wellFormed = true := by
  cases i with
  | enc w sel => cases sel <;> simp [legalCommands, mem_legalWidths, Instr.isCommand, Instr.wellFormed]
  | mul => simp [legalCommands, Instr.isCommand, Instr.wellFormed]
  | muls => simp [legalCommands, Instr.isCommand, Instr.wellFormed]
  | _ => simp [legalCommands, Instr.isCommand]

/-! ### The table of R99 -/

/-- The micro-operations the unit can issue, row by row of the table of R99. -/
inductive IssuedUop : Instr → Prop where
  | tableDouble : IssuedUop (.dbl .d .ain .none)
  | tableFirst : IssuedUop (.tosto (.ta 0) .ain .none)
  | tableAdd (j : Fin 8) (h : j.val < 7) : IssuedUop (.add .tmp .d (.ta j))
  | tableConvert : IssuedUop (.todbl .e .tmp .none)
  | tableStore (j : Fin 8) (h : 0 < j.val) : IssuedUop (.tosto (.ta j) .e .none)
  | initial : IssuedUop (.ident .acc .none .none)
  | loopDouble : IssuedUop (.dbl .acc .acc .none)
  | loopAddA (j : Fin 8) : IssuedUop (.add .tmp .acc (.ta j))
  | loopSubA (j : Fin 8) : IssuedUop (.sub .tmp .acc (.ta j))
  | loopAddB (j : Fin 64) : IssuedUop (.add .tmp .acc (.tb j))
  | loopSubB (j : Fin 64) : IssuedUop (.sub .tmp .acc (.tb j))
  | loopConvert : IssuedUop (.todbl .acc .tmp .none)
  | result : IssuedUop (.toext .rout .acc .none)

/-- The table of R99 is the well-formedness of micro-operations. -/
theorem issuedUop_iff {i : Instr} : IssuedUop i ↔ i.isCommand = false ∧ i.wellFormed = true := by
  constructor
  · intro h
    cases h <;> simp_all [Instr.isCommand, Instr.wellFormed, addOperands, subOperands, tostoOperands]
  · rintro ⟨hi, hw⟩
    cases i with
    | enc _ _ => cases hi
    | mul => cases hi
    | muls => cases hi
    | ident dst src1 src2 =>
      obtain ⟨rfl, rfl, rfl⟩ := of_decide_eq_true hw
      exact .initial
    | dbl dst src1 src2 =>
      obtain ⟨⟨rfl, rfl⟩ | ⟨rfl, rfl⟩, rfl⟩ := of_decide_eq_true hw
      · exact .tableDouble
      · exact .loopDouble
    | add dst src1 src2 =>
      simp only [Instr.wellFormed, addOperands] at hw
      split at hw
      · exact .tableAdd _ (of_decide_eq_true hw)
      · exact .loopAddA _
      · exact .loopAddB _
      · cases hw
    | sub dst src1 src2 =>
      simp only [Instr.wellFormed, subOperands] at hw
      split at hw
      · exact .loopSubA _
      · exact .loopSubB _
      · cases hw
    | todbl dst src1 src2 =>
      obtain ⟨rfl | rfl, rfl, rfl⟩ := of_decide_eq_true hw
      · exact .tableConvert
      · exact .loopConvert
    | tosto dst src1 src2 =>
      simp only [Instr.wellFormed, tostoOperands] at hw
      split at hw
      · rename_i j
        obtain rfl : j = 0 := Fin.ext (of_decide_eq_true hw)
        exact .tableFirst
      · exact .tableStore _ (of_decide_eq_true hw)
      · cases hw
    | toext dst src1 src2 =>
      obtain ⟨rfl, rfl, rfl⟩ := of_decide_eq_true hw
      exact .result

/-! The words of the rows of R99 that are indexed by a table entry. -/

theorem encode_add_d_ta (j : Fin 8) : encode (.add .tmp .d (.ta j)) = 0x301324C0 + BitVec.ofNat 32 j.val := by
  revert j
  decide

theorem encode_tosto_e (j : Fin 8) : encode (.tosto (.ta j) .e .none) = 0x601025FF#32 + (BitVec.ofNat 32 j.val <<< 14) := by
  revert j
  decide

theorem encode_add_acc_ta (j : Fin 8) : encode (.add .tmp .acc (.ta j)) = 0x30132540 + BitVec.ofNat 32 j.val := by
  revert j
  decide

theorem encode_sub_acc_ta (j : Fin 8) : encode (.sub .tmp .acc (.ta j)) = 0x40132540 + BitVec.ofNat 32 j.val := by
  revert j
  decide

theorem encode_add_acc_tb (j : Fin 64) : encode (.add .tmp .acc (.tb j)) = 0x30132500 + BitVec.ofNat 32 j.val := by
  revert j
  decide

theorem encode_sub_acc_tb (j : Fin 64) : encode (.sub .tmp .acc (.tb j)) = 0x40132500 + BitVec.ofNat 32 j.val := by
  revert j
  decide

/-- The words of R99 are the words of the micro-operations the unit can issue, row by row. -/
theorem r99Word_iff {w : Word} : Machine.R99Word w ↔ ∃ i, IssuedUop i ∧ encode i = w := by
  constructor
  · rintro (rfl | rfl | ⟨j, hj, rfl⟩ | rfl | ⟨j, hj, h1, rfl⟩ | rfl | rfl | ⟨j, hj, rfl⟩ | ⟨j, hj, rfl⟩ | ⟨j, hj, rfl⟩ |
      ⟨j, hj, rfl⟩ | rfl | rfl)
    · exact ⟨_, .tableDouble, rfl⟩
    · exact ⟨_, .tableFirst, rfl⟩
    · exact ⟨_, .tableAdd ⟨j, hj.trans (by decide)⟩ hj, encode_add_d_ta _⟩
    · exact ⟨_, .tableConvert, rfl⟩
    · exact ⟨_, .tableStore ⟨j, hj⟩ h1, encode_tosto_e _⟩
    · exact ⟨_, .initial, rfl⟩
    · exact ⟨_, .loopDouble, rfl⟩
    · exact ⟨_, .loopAddA ⟨j, hj⟩, encode_add_acc_ta _⟩
    · exact ⟨_, .loopSubA ⟨j, hj⟩, encode_sub_acc_ta _⟩
    · exact ⟨_, .loopAddB ⟨j, hj⟩, encode_add_acc_tb _⟩
    · exact ⟨_, .loopSubB ⟨j, hj⟩, encode_sub_acc_tb _⟩
    · exact ⟨_, .loopConvert, rfl⟩
    · exact ⟨_, .result, rfl⟩
  · rintro ⟨i, hi, rfl⟩
    cases hi with
    | tableDouble => exact .inl rfl
    | tableFirst =>
      right
      exact .inl rfl
    | tableAdd j h =>
      iterate 2 right
      exact .inl ⟨j, h, encode_add_d_ta j⟩
    | tableConvert =>
      iterate 3 right
      exact .inl rfl
    | tableStore j h =>
      iterate 4 right
      exact .inl ⟨j, j.isLt, h, encode_tosto_e j⟩
    | initial =>
      iterate 5 right
      exact .inl rfl
    | loopDouble =>
      iterate 6 right
      exact .inl rfl
    | loopAddA j =>
      iterate 7 right
      exact .inl ⟨j, j.isLt, encode_add_acc_ta j⟩
    | loopSubA j =>
      iterate 8 right
      exact .inl ⟨j, j.isLt, encode_sub_acc_ta j⟩
    | loopAddB j =>
      iterate 9 right
      exact .inl ⟨j, j.isLt, encode_add_acc_tb j⟩
    | loopSubB j =>
      iterate 10 right
      exact .inl ⟨j, j.isLt, encode_sub_acc_tb j⟩
    | loopConvert =>
      iterate 11 right
      exact .inl rfl
    | result =>
      iterate 12 right
      exact rfl

/-- The micro-operation words are those of the table of R99 (R97, R99). -/
theorem decodeUop_wellFormed_iff {w : Word} :
    (∃ i, decodeUop w = .ok i ∧ i.wellFormed = true) ↔ Machine.R99Word w := by
  rw [r99Word_iff]
  refine exists_congr fun i => ?_
  rw [decodeUop_eq_ok_iff, issuedUop_iff]
  tauto

namespace Machine

/-- The slot file a micro-operation leaves, or nothing where a source holds no value (43_point_ops R214 to R220). -/
def uopSlots (f : SlotFile) : Instr → Option SlotFile
  | .ident dst _ _ => some (putPD f dst Config.identity)
  | .dbl dst src1 _ => (slotPD f src1).map fun p => putPD f dst (Config.double p)
  | .add dst src1 src2 => (slotPD f src1).bind fun p => (slotPS f src2).map fun t => putPI f dst (Config.cadd p t)
  | .sub dst src1 src2 => (slotPD f src1).bind fun p => (slotPS f src2).map fun t => putPI f dst (Config.csub p t)
  | .todbl dst src1 _ => (slotPI f src1).map fun p => putPD f dst (Config.toDbl p)
  | .tosto dst src1 _ => (slotPD f src1).map fun p => putPS f dst (Config.toSto p)
  | .toext dst src1 _ => (slotPD f src1).map fun p => putPX f dst (Config.toExt p)
  | _ => none

/-- `exec` of a micro-operation performs it with the slot file it leaves (R212). -/
theorem exec_uop {i : Instr} (hi : i.isCommand = false) (s : State) :
    exec i s = performUop i (uopSlots s.slots i) s := by
  cases i with
  | enc _ _ => cases hi
  | mul => cases hi
  | muls => cases hi
  | _ => rfl

/-- A micro-operation outside the table of R99 is refused, whatever its sources hold (R100). -/
theorem exec_outsideTable {i : Instr} (hi : i.isCommand = false) (hw : i.wellFormed = false) (s : State) :
    exec i s = .refused .outsideUopTable := by
  simp [exec_uop hi, performUop, uopLegal, hw]

/-- The point unit refuses a word that is not the word of a micro-operation the unit can issue (R100). -/
theorem pointUnit_outsideTable {w : Word} (h : ¬ R99Word w) (s : State) :
    pointUnit w s = .refused .outsideUopTable := by
  cases hd : decodeUop w with
  | error e => simp [pointUnit, hd]
  | ok i =>
    rw [pointUnit_decoded hd]
    refine exec_outsideTable (decodeUop_isUop hd) (Bool.eq_false_iff.2 fun hw => h ?_) s
    exact decodeUop_wellFormed_iff.1 ⟨i, hd, hw⟩

/-! ### The obligations about words -/

/-- Settles O1: decoding inverts `encode`. -/
theorem decodeReadsBackEveryEncodedInstruction : Obligations.DecodeReadsBackEveryEncodedInstruction :=
  fun _ => decodeWord_eq_ok_iff.2 rfl

/-- Settles O2: `encode` inverts decoding. -/
theorem decodedWordIsTheEncodingOfItsInstruction : Obligations.DecodedWordIsTheEncodingOfItsInstruction :=
  fun _ _ => decodeWord_eq_ok_iff.1

/-- Settles O3: the sixteen words are those of the well-formed commands. -/
theorem legalCommandWordsAreTheSixteen : Obligations.LegalCommandWordsAreTheSixteen := by
  intro w
  have words : ([0x21, 0x31, 0x41, 0x51, 0x61, 0x71, 0x81, 0x121, 0x131, 0x141, 0x151, 0x161, 0x171, 0x181, 2, 3] : List Word) =
      legalCommands.map encode := by decide
  rw [words, List.mem_map]
  refine exists_congr fun i => ?_
  rw [decodeCmd_eq_ok_iff, mem_legalCommands]
  tauto

/-- Settles O4: the table of R99 lists the words of the well-formed micro-operations. -/
theorem legalMicroOpWordsAreTheTable : Obligations.LegalMicroOpWordsAreTheTable :=
  fun _ => decodeUop_wellFormed_iff

/-- Settles O22: such a word decodes to no micro-operation, or to one outside the table. -/
theorem wordsOutsideTheTableAreRefused : Obligations.WordsOutsideTheTableAreRefused :=
  fun s _ h => pointUnit_outsideTable h s

/-- Settles O5, word by word. -/
theorem specWordsDecode : Obligations.SpecWordsDecode :=
  ⟨rfl, rfl, rfl, rfl, rfl, rfl, rfl, rfl, rfl, rfl, rfl⟩

/-- Settles O6, by the lemma of each row of the opcode table. -/
theorem everyEncodingMatchesItsTableRow : Obligations.EveryEncodingMatchesItsTableRow := by
  intro i
  cases i with
  | enc w sel => exact Laws.OpcodeRow.enc w sel
  | mul => exact Laws.OpcodeRow.mul
  | muls => exact Laws.OpcodeRow.muls
  | ident dst src1 src2 => exact Laws.OpcodeRow.ident dst src1 src2
  | dbl dst src1 src2 => exact Laws.OpcodeRow.dbl dst src1 src2
  | add dst src1 src2 => exact Laws.OpcodeRow.add dst src1 src2
  | sub dst src1 src2 => exact Laws.OpcodeRow.sub dst src1 src2
  | todbl dst src1 src2 => exact Laws.OpcodeRow.todbl dst src1 src2
  | tosto dst src1 src2 => exact Laws.OpcodeRow.tosto dst src1 src2
  | toext dst src1 src2 => exact Laws.OpcodeRow.toext dst src1 src2

end Machine

end Sys2Proof
end

section
/-! PROOFS. The digits of a scalar (40_naf_encoder R122, R123): the digits below position 256 sum to it, and none of them stands above the
starting index of a multiplication (42_multiplier R177). -/

namespace Sys2Proof.Machine

/-- A digit takes an even part off the residual and leaves no negative one (R122). -/
theorem nafDigit_le_and_even {w : Nat} (hw : 1 ≤ w) (k : Nat) :
    nafDigit w k ≤ k ∧ ((k : Int) - nafDigit w k) % 2 = 0 := by
  rcases Nat.mod_two_eq_zero_or_one k with hk | hk
  · rw [nafDigit_even hk]
    omega
  · have hdouble : 2 ^ w = 2 * 2 ^ (w - 1) := (mul_pow_sub_one (by omega) 2).symm
    have hcast : ((2 ^ w : Nat) : Int) = (2 : Int) ^ w := by push_cast; rfl
    have hodd : k % 2 ^ w % 2 = 1 := by rw [Nat.mod_mod_of_dvd _ ⟨2 ^ (w - 1), hdouble⟩, hk]
    have hle := Nat.mod_le k (2 ^ w)
    rw [nafDigit_odd hk, ← hcast]
    split_ifs <;> omega

/-- The recurrence of R122 read upwards: a residual is its digit and twice the next residual. -/
theorem nafResidual_eq {w : Nat} (hw : 1 ≤ w) (s i : Nat) :
    (nafResidual s w i : Int) = naf s w i + 2 * nafResidual s w (i + 1) := by
  obtain ⟨hle, heven⟩ := nafDigit_le_and_even hw (nafResidual s w i)
  rw [nafResidual_succ, naf]
  omega

/-- The digits below a position and the residual there make up the scalar (R123 (1)). -/
theorem digitSum_add_nafResidual {w : Nat} (hw : 1 ≤ w) (s n : Nat) :
    digitSum (naf s w) n + 2 ^ n * nafResidual s w n = s := by
  induction n with
  | zero => simp [digitSum, nafResidual]
  | succ n ih =>
    rw [nafResidual_eq hw] at ih
    rw [digitSum, pow_succ]
    linarith

/-- One step of the recurrence halves a power-of-two bound on the residual. -/
theorem nafResidual_succ_le {w : Nat} (hw : 1 ≤ w) {s i n : Nat} (h : nafResidual s w i ≤ 2 ^ (n + 1)) :
    nafResidual s w (i + 1) ≤ 2 ^ n := by
  have hrec := nafResidual_eq hw s i
  rw [naf] at hrec
  generalize nafResidual s w i = k at h hrec
  rw [pow_succ] at h
  rcases Nat.mod_two_eq_zero_or_one k with hk | hk
  · rw [nafDigit_even hk] at hrec
    omega
  rw [nafDigit_odd hk] at hrec
  split_ifs at hrec with hneg
  case neg => omega
  -- a negative digit rounds `k` up to a multiple of `2 ^ w`, which the bound is one of
  have hmod := Nat.div_add_mod k (2 ^ w)
  have hcast : ((2 ^ w : Nat) : Int) = (2 : Int) ^ w := by push_cast; rfl
  have hnw : w ≤ n + 1 := by
    by_contra hlt
    have hpow := Nat.pow_le_pow_right (n := 2) (by omega) (show n + 1 ≤ w - 1 by omega)
    have hle := Nat.mod_le k (2 ^ w)
    rw [pow_succ] at hpow
    omega
  obtain ⟨m, hm⟩ : 2 ^ w ∣ 2 ^ (n + 1) := pow_dvd_pow 2 hnw
  have hround : 2 ^ w * (k / 2 ^ w + 1) ≤ 2 ^ (n + 1) := by
    rw [hm]
    refine Nat.mul_le_mul_left _ (Nat.div_lt_of_lt_mul ?_)
    rw [← hm, pow_succ]
    omega
  rw [Nat.mul_add, pow_succ] at hround
  omega

/-- Past the top of the scalar the residual is 0 (R123 (4)). -/
theorem nafResidual_eq_zero {w s : Nat} (lo : 2 ≤ w) (h : s < 2 ^ 255) : nafResidual s w 256 = 0 := by
  have bound (i : Nat) (hi : i ≤ 255) : nafResidual s w i ≤ 2 ^ (255 - i) := by
    induction i with
    | zero => exact h.le
    | succ i ih =>
      refine nafResidual_succ_le (by omega) ?_
      rw [show 255 - (i + 1) + 1 = 255 - i by omega]
      exact ih (by omega)
  have hlast : nafResidual s w 255 ≤ 1 := bound 255 (by omega)
  have hrec : (nafResidual s w 255 : Int) = naf s w 255 + 2 * nafResidual s w 256 := nafResidual_eq (by omega) s 255
  rw [naf] at hrec
  obtain h0 | h1 : nafResidual s w 255 = 0 ∨ nafResidual s w 255 = 1 := by omega
  · rw [h0, nafDigit_even rfl] at hrec
    omega
  · have hpow : 2 ≤ 2 ^ (w - 1) := Nat.le_self_pow (by omega) 2
    have hdouble : 2 ^ w = 2 * 2 ^ (w - 1) := (mul_pow_sub_one (by omega) 2).symm
    rw [h1, nafDigit_odd rfl, Nat.mod_eq_of_lt (by omega), if_neg (by omega)] at hrec
    omega

/-- The 256 digits of a scalar sum to it (R123 (1)). -/
theorem digitSum_naf {w s : Nat} (lo : 2 ≤ w) (h : s < 2 ^ 255) : digitSum (naf s w) 256 = s := by
  simpa [nafResidual_eq_zero lo h] using digitSum_add_nafResidual (w := w) (by omega) s 256

/-! ### Above the starting index -/

/-- Positions without a nonzero digit add nothing to the sum. -/
theorem digitSum_of_zeros {d : Nat → Int} {m n : Nat} (hmn : m ≤ n) (hz : ∀ i, m ≤ i → i < n → d i = 0) :
    digitSum d n = digitSum d m := by
  induction n, hmn using Nat.le_induction with
  | base => rfl
  | succ n hmn ih => rw [digitSum, hz n hmn (by omega), ih fun i h1 h2 => hz i h1 (by omega), zero_mul, add_zero]

/-- Positions without a nonzero digit add nothing to the count. -/
theorem nonzeroCount_of_zeros {d : Nat → Int} {m n : Nat} (hmn : m ≤ n) (hz : ∀ i, m ≤ i → i < n → d i = 0) :
    nonzeroCount d n = nonzeroCount d m := by
  induction n, hmn using Nat.le_induction with
  | base => rfl
  | succ n hmn ih => rw [nonzeroCount, hz n hmn (by omega), ih fun i h1 h2 => hz i h1 (by omega), if_pos rfl, add_zero]

/-- The starting index is a position, and every digit above it is 0 (42_multiplier R177). -/
theorem refFirst_spec (a b : Nat) :
    refFirst a b < 256 ∧ ∀ i, refFirst a b + 1 ≤ i → i < 256 → naf a 5 i = 0 ∧ naf b 8 i = 0 := by
  obtain ⟨habove, -, hle⟩ := highest_spec (fun i => decide (naf a 5 i ≠ 0) || decide (naf b 8 i ≠ 0)) 256
  refine ⟨Nat.lt_of_le_of_lt hle (by decide), fun i h1 h2 => ?_⟩
  simpa using habove i h1 h2

/-- The digits up to the starting index already sum to the two scalars. -/
theorem digitSum_refFirst {a b : Nat} (ha : a < 2 ^ 255) (hb : b < 2 ^ 255) :
    digitSum (naf a 5) (refFirst a b + 1) = a ∧ digitSum (naf b 8) (refFirst a b + 1) = b := by
  obtain ⟨hlt, hz⟩ := refFirst_spec a b
  constructor
  · rw [← digitSum_of_zeros hlt fun i h1 h2 => (hz i h1 h2).1, digitSum_naf (by omega) ha]
  · rw [← digitSum_of_zeros hlt fun i h1 h2 => (hz i h1 h2).2, digitSum_naf (by omega) hb]

/-- Every combine of a multiplication is at or below the starting index (R200). -/
theorem refCombines_eq (a b : Nat) :
    refCombines a b = nonzeroCount (naf a 5) (refFirst a b + 1) + nonzeroCount (naf b 8) (refFirst a b + 1) := by
  obtain ⟨hlt, hz⟩ := refFirst_spec a b
  rw [refCombines, nonzeroCount_of_zeros hlt fun i h1 h2 => (hz i h1 h2).1,
    nonzeroCount_of_zeros hlt fun i h1 h2 => (hz i h1 h2).2]

end Sys2Proof.Machine
end

section
/-! PROOFS. The table build of a multiplication from its first micro-operation to its last (41_table_builder R153, R154). -/

namespace Sys2Proof.Machine

/-- A micro-operation of the table of R99 whose sources hold values. -/
theorem exec_uop_some {i : Instr} {s : State} {g : SlotFile} (hi : i.isCommand = false) (hw : i.wellFormed = true)
    (hg : uopSlots s.slots i = some g) : exec i s = .next { s with slots := g, uops := s.uops ++ [encode i] } := by
  rw [exec_uop hi, hg, performUop_some hw]

/-- Entry `j` of the table of A that is built from `p` (R153). -/
def oddMultiple (p : PD) : Nat → PS
  | 0 => Config.toSto p
  | j + 1 => Config.toSto (Config.toDbl (Config.cadd (Config.double p) (oddMultiple p j)))

/-- Entry `j` denotes `2j + 1` times the point (R154). -/
theorem denPS_oddMultiple {G : Type} [AddCommGroup G] (c : PointContract G) (p : PD) (j : Nat) :
    c.denPS (oddMultiple p j) = (2 * j + 1) • c.denPD p := by
  induction j with
  | zero => simp [oddMultiple, c.den_toSto]
  | succ j ih =>
    rw [oddMultiple, c.den_toSto, c.den_toDbl, c.den_cadd, c.den_double, ih]
    module

/-! ### The list of micro-operations -/

/-- The list of R153 from entry to entry. -/
theorem tableUop_round (j : Nat) :
    tableUop (3 * j + 2) = .add .tmp .d (taSlot j) ∧ tableUop (3 * j + 3) = .todbl .e .tmp .none ∧
      tableUop (3 * j + 4) = .tosto (taSlot (j + 1)) .e .none := by
  unfold tableUop
  refine ⟨?_, ?_, ?_⟩
  · rw [if_neg (by omega), if_neg (by omega), if_pos (by omega), show (3 * j + 2 + 1) / 3 - 1 = j by omega]
  · rw [if_neg (by omega), if_neg (by omega), if_neg (by omega), if_pos (by omega)]
  · rw [if_neg (by omega), if_neg (by omega), if_neg (by omega), if_neg (by omega), show (3 * j + 4 - 1) / 3 = j + 1 by omega]

/-- Every micro-operation of the list stands in the table of R99. -/
theorem tableUop_wellFormed {n : Nat} (h : n < 23) : (tableUop n).wellFormed = true := by
  revert n
  decide

/-! ### The run -/

/-- The state after `n` micro-operations of a table build that started in `s`, with the slots they have left: the index of the next one, or the
phase `M_SCAN` after the last (R176). -/
def tableAt (s : State) (n : Nat) (f : SlotFile) : State :=
  { s with
    slots := f
    uops := s.uops ++ ((List.range n).map tableUop).map encode
    seq := if n < 23 then { s.seq with tstep := BitVec.ofNat 5 n } else { s.seq with q := .mScan, tstep := 22 } }

theorem tableAt_zero {s : State} (h : s.seq.tstep = 0) : tableAt s 0 s.slots = s := by
  obtain ⟨_, _, _, _, _, _, _, _, ⟨_, _, _, _, _⟩, _, _, _, _, _, _⟩ := s
  cases h
  simp [tableAt]

/-- A step of the table phase performs the micro-operation that `tstep` names (R176). -/
theorem unitStep_tableUop {s : State} (h : AtPhase s .mTbl) {n : Nat} (hn : s.seq.tstep.toNat = n) :
    unitStep s = exec (tableUop n) (tableRule s).2 := by
  subst hn
  rw [unitStep_mTbl h]
  exact issueRule_some (tableUop_isUop _) _

/-- One step of the table build: the next micro-operation of the list is performed (R176). -/
theorem tableAt_step {s : State} (h : AtPhase s .mTbl) {n : Nat} (hn : n < 23) {f g : SlotFile}
    (hg : uopSlots f (tableUop n) = some g) : unitStep (tableAt s n f) = .next (tableAt s (n + 1) g) := by
  have hseq : (tableAt s n f).seq = { s.seq with tstep := BitVec.ofNat 5 n } := if_pos hn
  have hphase : AtPhase (tableAt s n f) .mTbl := ⟨h.1, by rw [hseq]; exact h.2⟩
  have htstep : (tableAt s n f).seq.tstep.toNat = n := by
    rw [hseq, BitVec.toNat_ofNat]
    omega
  have hrule : (tableRule (tableAt s n f)).2 = { tableAt s n f with seq := (tableAt s (n + 1) g).seq } := by
    unfold tableRule
    by_cases hlast : n = 22
    · subst hlast
      rfl
    · have hne : (tableAt s n f).seq.tstep ≠ 22 := fun e => hlast (htstep.symm.trans (congrArg BitVec.toNat e))
      have hnext : (tableAt s (n + 1) g).seq = { s.seq with tstep := BitVec.ofNat 5 (n + 1) } := if_pos (by omega)
      rw [if_neg hne, hnext, hseq, BitVec.ofNat_add n 1]
      rfl
  rw [unitStep_tableUop hphase htstep, hrule, exec_uop_some (tableUop_isUop n) (tableUop_wellFormed hn) hg]
  simp [tableAt, List.range_succ]

/-- What the slots hold when the table of A is built from `p` up to entry `j` (R153): 2·p in `D`, the entries, and all slots but `TA`, `D`, `E`
and `TMP` as they were. -/
structure BuiltTo (p : PD) (j : Nat) (f g : SlotFile) : Prop where
  frame : g = { f with ta := g.ta, d := some (Config.double p), e := g.e, tmp := g.tmp }
  entry : ∀ i : Fin 8, i.val ≤ j → g.ta[i] = some (oddMultiple p i)

/-- The two micro-operations of the first entry. -/
theorem table_first {s : State} {p : PD} (h : AtPhase s .mTbl) (h0 : s.seq.tstep = 0) (hp : s.slots.ain = some p) :
    ∃ g, unitRun 2 s = .next (tableAt s 2 g) ∧ BuiltTo p 0 s.slots g := by
  have hdbl := tableAt_step h (n := 0) (by omega) (f := s.slots) (g := { s.slots with d := some (Config.double p) })
    (by simp [tableUop, uopSlots, slotPD, putPD, hp])
  rw [tableAt_zero h0] at hdbl
  refine ⟨{ s.slots with d := some (Config.double p), ta := s.slots.ta.set 0 (some (Config.toSto p)) }, ?_, rfl, ?_⟩
  · refine unitRun_two hdbl (tableAt_step h (n := 1) (by omega) ?_)
    simp [tableUop, uopSlots, slotPD, putPS, taSlot, hp]
  · intro i hi
    obtain rfl : i = 0 := Fin.ext (by simpa using hi)
    simp [oddMultiple]

/-- The three micro-operations of each later entry. -/
theorem table_round {s : State} {p : PD} (h : AtPhase s .mTbl) {j : Nat} (hj : j < 7) {f : SlotFile}
    (hf : BuiltTo p j s.slots f) :
    ∃ g, unitRun 3 (tableAt s (3 * j + 2) f) = .next (tableAt s (3 * j + 5) g) ∧ BuiltTo p (j + 1) s.slots g := by
  obtain ⟨hadd, htodbl, htosto⟩ := tableUop_round j
  obtain ⟨x, hx⟩ : ∃ x, x = Config.cadd (Config.double p) (oddMultiple p j) := ⟨_, rfl⟩
  have hd : slotPD f .d = some (Config.double p) := by
    show f.d = _
    rw [hf.frame]
  have hta : slotPS f (taSlot j) = some (oddMultiple p j) := by
    show f.ta[Fin.ofNat 8 j] = _
    have hval : (Fin.ofNat 8 j).val = j := Nat.mod_eq_of_lt (by omega)
    rw [hf.entry _ hval.le, hval]
  have hval : (Fin.ofNat 8 (j + 1)).val = j + 1 := Nat.mod_eq_of_lt (by omega)
  refine ⟨{ f with
    tmp := some x, e := some (Config.toDbl x)
    ta := f.ta.set (j + 1) (some (Config.toSto (Config.toDbl x))) (by omega) }, ?_, ?_, fun i hi => ?_⟩
  · rw [unitRun_succ (tableAt_step h (by omega) (g := { f with tmp := some x }) ?_)]
    · refine unitRun_two (tableAt_step h (by omega) (g := { f with tmp := some x, e := some (Config.toDbl x) }) ?_)
        (tableAt_step h (by omega) ?_)
      · rw [htodbl]
        rfl
      · rw [htosto]
        simp only [uopSlots, slotPD, Option.map_some, putPS, taSlot, hval]
    · rw [hadd]
      simp only [uopSlots, hd, hta, Option.bind_some, Option.map_some, putPI, ← hx]
  · rw [hf.frame]
  · rcases Nat.lt_or_ge i.val (j + 1) with hlt | hge
    · have hne : j + 1 ≠ i.val := by omega
      simpa [hne] using hf.entry i (by omega)
    · have he : i.val = j + 1 := by omega
      simp [he, hx, oddMultiple]

/-- The table build up to entry `j`. -/
theorem table_entries {s : State} {p : PD} (h : AtPhase s .mTbl) (h0 : s.seq.tstep = 0) (hp : s.slots.ain = some p)
    (j : Nat) (hj : j ≤ 7) : ∃ g, unitRun (3 * j + 2) s = .next (tableAt s (3 * j + 2) g) ∧ BuiltTo p j s.slots g := by
  induction j with
  | zero => exact table_first h h0 hp
  | succ j ih =>
    obtain ⟨f, hrun, hf⟩ := ih (by omega)
    obtain ⟨g, hround, hg⟩ := table_round h (by omega) hf
    refine ⟨g, ?_, hg⟩
    rw [show 3 * (j + 1) + 2 = 3 * j + 2 + 3 by omega, unitRun_add hrun, hround]

/-- The whole table build: 23 steps that leave the phase `M_SCAN` and the full table of A (R153, R154). -/
theorem table_run {s : State} {p : PD} (h : AtPhase s .mTbl) (h0 : s.seq.tstep = 0) (hp : s.slots.ain = some p) :
    ∃ g, unitRun 23 s = .next { s with
      slots := g, uops := s.uops ++ refTableBuild.map encode, seq := { s.seq with q := .mScan, tstep := 22 } } ∧
      BuiltTo p 7 s.slots g :=
  table_entries h h0 hp 7 (by omega)

end Sys2Proof.Machine
end

section
/-! PROOFS. A multiplication from its acceptance to the phase `M_OUT` and its last step (42_multiplier R174 to R195), with the words, the digits,
the counters and the value that the accumulator denotes. -/

namespace Sys2Proof.Machine

/-- A multiplication has just been accepted: the encoding of `SA` with width 5 is at its start (R173). -/
structure MulStarted (s : State) : Prop where
  phase : AtPhase s .mEncA
  enc : s.enc = { ex := s.sa, ec := false, ez := 0, epos := 0, ew := Config.wa, esel := .a }

/-- An encoding that has just started stands at position 0 of the digits of its scalar (40_naf_encoder R124). -/
theorem encAt_startEncoding {s : State} (hb : s.status.busy = true) (hE : Encoding s) (sel : Sel) (w : BitVec 4) :
    EncAt (startEncoding sel w s) (scalarOf sel s).toNat w.toNat 0 :=
  ⟨hb, hE, rfl, rfl, represents_start sel w s⟩

/-- The encoding of `SA`, whose last step starts that of `SB` with width 8 (R174). -/
theorem encodingA_run {s : State} (h : MulStarted s) :
    ∃ t : State, unitRun 256 s = .next (startEncoding .b Config.wb { t with seq := { s.seq with q := .mEncB } }) ∧
      t = { s with mem := t.mem, enc := t.enc } ∧ HoldsDigits .a (naf s.sa.toNat 5) t := by
  obtain ⟨⟨hb, hq⟩, he⟩ := h
  have hstart : startEncoding .a Config.wa s = s := by
    unfold startEncoding scalarOf
    rw [← he]
  have hat := encAt_startEncoding hb (.inr (.inl hq)) .a Config.wa
  rw [hstart] at hat
  obtain ⟨t, hrun, hkeep, hdigits, -⟩ := encoding_run (by decide) (by decide) hat
  have hseq : t.seq = s.seq := by rw [hkeep]
  refine ⟨t, ?_, hkeep, by rwa [he] at hdigits⟩
  rw [hrun, endEncoding, hseq, hq]

/-- The encoding of `SB`, whose last step starts the table build (R175). -/
theorem encodingB_run {s : State} (hb : s.status.busy = true) (hq : s.seq.q = .mEncB) :
    ∃ t : State, unitRun 256 (startEncoding .b Config.wb s) =
        .next { t with seq := { s.seq with q := .mTbl, tstep := 0 } } ∧
      t = { s with mem := t.mem, enc := t.enc } ∧ HoldsDigits .b (naf s.sb.toNat 8) t ∧
      ∀ d, HoldsDigits .a d s → HoldsDigits .a d t := by
  have hat := encAt_startEncoding hb (.inr (.inr hq)) .b Config.wb
  obtain ⟨t, hrun, hkeep, hdigits, hout⟩ := encoding_run (by decide) (by decide) hat
  have hseq : t.seq = s.seq := by rw [hkeep]; rfl
  refine ⟨t, ?_, hkeep, hdigits, fun d hd i => ?_⟩
  · rw [hrun, endEncoding, hseq, hq]
  · rw [hout _ fun j e => by cases (digitAddr_inj.1 e).1]
    exact hd i

/-- Both encodings: 512 steps that leave the digits of both scalars and the start of the table build (R174, R175). -/
theorem encodings_run {s : State} (h : MulStarted s) :
    ∃ t, unitRun 512 s = .next t ∧
      t = { s with mem := t.mem, enc := t.enc, seq := { s.seq with q := .mTbl, tstep := 0 } } ∧
      HoldsDigits .a (naf s.sa.toNat 5) t ∧ HoldsDigits .b (naf s.sb.toNat 8) t := by
  obtain ⟨u, hrunA, hu, hA⟩ := encodingA_run h
  have hub : u.status.busy = true := by rw [hu]; exact h.phase.1
  obtain ⟨t, hrunB, ht, hB, hkeep⟩ := encodingB_run (s := { u with seq := { s.seq with q := .mEncB } }) hub rfl
  refine ⟨_, (unitRun_add hrunA 256).trans hrunB, ?_, hkeep _ hA, ?_⟩
  · rw [ht, hu]
  · have hsb : u.sb = s.sb := by rw [hu]
    rwa [← hsb]

/-! ### The steps between the table build and the loop, and after it -/

theorem tc8_eq_zero_iff {d : Int} (h : d.natAbs ≤ 127) : tc8 d = 0 ↔ d = 0 := by
  constructor
  · intro h0
    have := congrArg BitVec.toInt h0
    rwa [tc8_toInt h] at this
  · rintro rfl
    rfl

/-- The scan of stored digit sequences finds the starting index of the reference (R177). -/
theorem startIndex_of_holds {a b : Nat} {s : State} (hA : HoldsDigits .a (naf a 5) s) (hB : HoldsDigits .b (naf b 8) s) :
    startIndex s = refFirst a b := by
  have bound (v w i : Nat) (lo : 2 ≤ w) (hi : w ≤ 8) : (naf v w i).natAbs ≤ 127 := by
    have hpow := Nat.pow_le_pow_right (n := 2) (by omega) (show w - 1 ≤ 7 by omega)
    rcases naf_bound lo v i with h0 | ⟨-, hle⟩ <;> omega
  unfold startIndex refFirst refStart
  refine highest_congr fun i hi => ?_
  have hval : (BitVec.ofNat 8 i).toNat = i := Nat.mod_eq_of_lt hi
  simp only [positionUsed, digitByte_of_holds hA, digitByte_of_holds hB, hval, ne_eq,
    tc8_eq_zero_iff (bound _ _ _ (by decide : 2 ≤ 5) (by decide)), tc8_eq_zero_iff (bound _ _ _ (by decide : 2 ≤ 8) (by decide))]

/-- The step of `M_SCAN` on the digits of two scalars (R177). -/
theorem scan_step {a b : Nat} {s : State} (h : AtPhase s .mScan) (hA : HoldsDigits .a (naf a 5) s)
    (hB : HoldsDigits .b (naf b 8) s) :
    unitStep s = .next { s with seq := { s.seq with li := BitVec.ofNat 8 (refFirst a b), q := .mInit } } := by
  rw [unitStep_mScan h, scanRule, issueRule_none, startIndex_of_holds hA hB]

/-- The step of `M_INIT` (R178). -/
theorem init_step {s : State} (h : AtPhase s .mInit) :
    unitStep s = .next { s with
      slots := { s.slots with acc := some Config.identity }, uops := s.uops ++ [encode (.ident .acc .none .none)]
      seq := { s.seq with lsub := .lDbl, q := .mLoop } } := by
  rw [unitStep_mInit h, initRule, issueRule_some rfl]
  exact exec_uop_some rfl rfl rfl

/-- The step of `M_OUT` (R191). -/
theorem out_step {s : State} {q : PD} (h : AtPhase s .mOut) (hacc : s.slots.acc = some q) :
    unitStep s = .next { endCommand (writeScore s) with
      slots := { s.slots with rout := some (Config.toExt q) }, uops := s.uops ++ [encode (.toext .rout .acc .none)] } := by
  rw [unitStep_mOut h, outRule, issueRule_some rfl]
  refine exec_uop_some rfl rfl ?_
  simp [uopSlots, slotPD, putPX, hacc]

/-! ### The whole multiplication -/

/-- What a multiplication of `SA` and `SB` that started in `s` with the point `p` in `AIN` has done when its loop starts. -/
structure LoopStarted (p : PD) (s t : State) : Prop where
  sub : AtSub t .lDbl
  frame : t = { s with
    mem := t.mem, enc := t.enc, slots := t.slots
    uops := s.uops ++ (refTableBuild ++ [Instr.ident .acc .none .none]).map encode
    seq := { t.seq with diag := s.seq.diag } }
  li : t.seq.li.toNat = refFirst s.sa.toNat s.sb.toNat
  ain : t.slots.ain = some p
  acc : t.slots.acc = some Config.identity
  entry : ∀ j : Fin 8, t.slots.ta[j] = some (oddMultiple p j)
  digitsA : HoldsDigits .a (naf s.sa.toNat 5) t
  digitsB : HoldsDigits .b (naf s.sb.toNat 8) t

/-- A multiplication runs to its loop: both encodings, the table build, the scan and `IDENT` (R174 to R178). -/
theorem loopStarted_run {s : State} {p : PD} (h : MulStarted s) (hp : s.slots.ain = some p) :
    ∃ t, unitRun 537 s = .next t ∧ LoopStarted p s t := by
  obtain ⟨u, henc, hu, hA, hB⟩ := encodings_run h
  have hbusy : u.status.busy = true := by rw [hu]; exact h.phase.1
  obtain ⟨g, htbl, hg⟩ := table_run (s := u) (p := p) ⟨hbusy, by rw [hu]⟩ (by rw [hu]) (by rw [hu]; exact hp)
  obtain ⟨v, hv⟩ : ∃ v : State, v = { u with
    slots := g, uops := u.uops ++ refTableBuild.map encode, seq := { u.seq with q := .mScan, tstep := 22 } } := ⟨_, rfl⟩
  rw [← hv] at htbl
  have hscan := scan_step (s := v) (by rw [hv]; exact ⟨hbusy, rfl⟩) (by rw [hv]; exact hA) (by rw [hv]; exact hB)
  have hinit := init_step
    (s := { v with seq := { v.seq with li := BitVec.ofNat 8 (refFirst s.sa.toNat s.sb.toNat), q := .mInit } })
    ⟨by rw [hv]; exact hbusy, rfl⟩
  refine ⟨_, (unitRun_add ((unitRun_add henc 23).trans htbl) 2).trans (unitRun_two hscan hinit), ?_⟩
  constructor
  case sub => exact ⟨⟨by rw [hv]; exact hbusy, rfl⟩, rfl⟩
  case frame => rw [hv, hu]; simp
  case li => exact Nat.mod_eq_of_lt (refFirst_spec _ _).1
  case ain => rw [hv, hg.frame, hu]; exact hp
  case acc => rfl
  case entry => exact fun j => by rw [hv]; exact hg.entry j (by omega)
  case digitsA => rw [hv]; exact hA
  case digitsB => rw [hv]; exact hB

/-- What a multiplication of `SA` = a and `SB` = b that started in `s` with the point `p` in `AIN` has done when it reaches `M_OUT`. -/
structure ReachesOut (p : PD) (s t : State) : Prop where
  phase : AtPhase t .mOut
  frame : t = { s with
    mem := t.mem, enc := t.enc, iter := t.iter, skip := t.skip, slots := t.slots
    uops := s.uops ++ (refTableBuild ++ [Instr.ident .acc .none .none] ++
      refLoop (naf s.sa.toNat 5) (naf s.sb.toNat 8) (refFirst s.sa.toNat s.sb.toNat)).map encode
    seq := { t.seq with diag := s.seq.diag } }
  ain : t.slots.ain = some p
  digitsA : HoldsDigits .a (naf s.sa.toNat 5) t
  digitsB : HoldsDigits .b (naf s.sb.toNat 8) t
  iter : t.iter = if s.seq.diag then s.iter + BitVec.ofNat 9 (refFirst s.sa.toNat s.sb.toNat + 1) else s.iter
  skip : t.skip = if s.seq.diag then
    s.skip + BitVec.ofNat 10 (zeroCount (naf s.sa.toNat 5) (refFirst s.sa.toNat s.sb.toNat + 1) +
      zeroCount (naf s.sb.toNat 8) (refFirst s.sa.toNat s.sb.toNat + 1)) else s.skip
  acc : ∃ q, t.slots.acc = some q ∧ ∀ (G : Type) [AddCommGroup G] (c : PointContract G) (gen : G), TableOfB c gen →
    c.denPD q = s.sa.toNat • c.denPD p + s.sb.toNat • gen

/-- The digits up to the starting index denote the double-base sum (R194, R195). -/
theorem digitSums_smul {G : Type} [AddCommGroup G] {a b : Nat} (ha : a < 2 ^ 255) (hb : b < 2 ^ 255) (P Q : G) :
    digitSum (naf a 5) (refFirst a b + 1) • P + digitSum (naf b 8) (refFirst a b + 1) • Q = a • P + b • Q := by
  obtain ⟨hA, hB⟩ := digitSum_refFirst ha hb
  rw [hA, hB, natCast_zsmul, natCast_zsmul]

/-- A scalar with bit 255 clear is below `2 ^ 255`. -/
theorem toNat_lt_of_msb {v : Scalar} (h : v[255] = false) : v.toNat < 2 ^ 255 := by
  have hmsb : v.msb = false := h
  have := BitVec.msb_eq_false_iff_two_mul_lt.1 hmsb
  omega

/-- A multiplication runs to `M_OUT`: after the loop's start, the loop (R179 to R190). -/
theorem multiply_run {s : State} {p : PD} (h : MulStarted s) (ha : s.sa[255] = false) (hb : s.sb[255] = false)
    (hp : s.slots.ain = some p) :
    ∃ t, unitRun (541 + 4 * refFirst s.sa.toNat s.sb.toNat + refCombines s.sa.toNat s.sb.toNat) s = .next t ∧
      ReachesOut p s t := by
  obtain ⟨u, hstart, hu⟩ := loopStarted_run h hp
  obtain ⟨t, q, x, hloop, ht, hiter, hskip, hden⟩ := loop_run (naf_range s.sa.toNat s.sb.toNat) _ u Config.identity
    hu.sub hu.li hu.acc (fun j => ⟨_, hu.entry j⟩) hu.digitsA hu.digitsB
  refine ⟨t, ?_, ?_⟩
  · have hsteps : 541 + 4 * refFirst s.sa.toNat s.sb.toNat + refCombines s.sa.toNat s.sb.toNat =
        537 + (4 * (refFirst s.sa.toNat s.sb.toNat + 1) + nonzeroCount (naf s.sa.toNat 5) (refFirst s.sa.toNat s.sb.toNat + 1) +
          nonzeroCount (naf s.sb.toNat 8) (refFirst s.sa.toNat s.sb.toNat + 1)) := by
      rw [refCombines_eq]
      omega
    rw [hsteps, unitRun_add hstart, hloop]
  · have hdiag : u.seq.diag = s.seq.diag := by rw [hu.frame]
    constructor
    case phase => rw [ht]; exact ⟨hu.sub.1.1, rfl⟩
    case frame => rw [ht, hu.frame]; simp
    case ain => rw [ht]; exact hu.ain
    case digitsA => rw [ht]; exact hu.digitsA
    case digitsB => rw [ht]; exact hu.digitsB
    case iter => rw [hiter, hdiag, hu.frame]
    case skip => rw [hskip, hdiag, hu.frame]
    case acc =>
      refine ⟨q, by rw [ht], fun G _ c gen hgen => ?_⟩
      have htable : TableOfA c (c.denPD p) u := by
        intro j y hy
        rw [hu.entry j] at hy
        cases hy
        exact denPS_oddMultiple c p j
      rw [hden G c _ gen htable hgen, c.den_identity, smul_zero, zero_add]
      exact digitSums_smul (toNat_lt_of_msb ha) (toNat_lt_of_msb hb) _ _

end Sys2Proof.Machine
end

section
/-! PROOFS. The pseudo-command `multiply` of spec/30_encoding.md R103 as a run of the machine: the host's writes of the operands, the `CMD` write,
the poll while the unit runs, and the two reads. -/

namespace Sys2Proof.Machine

/-! ### Runs of the machine -/

theorem runsTo_zero (s : State) : RunsTo 0 s s := rfl

/-- A run of at least one step is a step and then a run. -/
theorem runsTo_succ_iff {n : Nat} {s u : State} : RunsTo (n + 1) s u ↔ ∃ t, step s = .next t ∧ RunsTo n t u := by
  have hcore : core.step s = step s := rfl
  unfold RunsTo
  cases h : step s with
  | next t => simp [Host.Core.run, hcore, h]
  | fault r => simp [Host.Core.run, hcore, h]
  | refused r => simp [Host.Core.run, hcore, h]

theorem RunsTo.step_then {n : Nat} {s t u : State} (h : step s = .next t) (hr : RunsTo n t u) : RunsTo (n + 1) s u :=
  runsTo_succ_iff.2 ⟨t, h, hr⟩

theorem runsTo_one {s t : State} (h : step s = .next t) : RunsTo 1 s t := .step_then h (runsTo_zero t)

/-- Two runs one after the other are one run. -/
theorem RunsTo.trans {m n : Nat} {s t u : State} (h : RunsTo m s t) (hr : RunsTo n t u) : RunsTo (m + n) s u := by
  induction m generalizing s with
  | zero =>
    cases h
    rwa [Nat.zero_add]
  | succ m ih =>
    obtain ⟨v, hv, h⟩ := runsTo_succ_iff.1 h
    rw [Nat.succ_add]
    exact .step_then hv (ih h)

/-! ### Writing the operands -/

/-- `S[sel]` replaced. -/
def putScalar (sel : Sel) (v : Scalar) (s : State) : State :=
  match sel with
  | .a => { s with sa := v }
  | .b => { s with sb := v }

theorem writeScalarWord_eq (sel : Sel) (k : Nat) (w : Word) (s : State) :
    writeScalarWord sel k w s = putScalar sel (putScalarWord (scalarOf sel s) k w) s := by cases sel <;> rfl

@[simp] theorem scalarOf_putScalar (sel : Sel) (v : Scalar) (s : State) : scalarOf sel (putScalar sel v s) = v := by
  cases sel <;> rfl

theorem putScalar_scalarOf (sel : Sel) (s : State) : putScalar sel (scalarOf sel s) s = s := by cases sel <;> rfl

/-- A scalar is determined by its eight words (20_memory R65). -/
theorem eq_of_scalarWord_eq {v w : Scalar} (h : ∀ k < 8, scalarWord v k = scalarWord w k) : v = w := by
  apply BitVec.eq_of_getLsbD_eq
  intro i hi
  have hword := congrArg (BitVec.getLsbD · (i % 32)) (h (i / 32) (by omega))
  have hlt : i % 32 < 32 := Nat.mod_lt _ (by omega)
  simpa [scalarWord, hlt, Nat.div_add_mod] using hword

/-- A host move `WR` of one scalar word (R64). -/
theorem step_writeScalarWord {s : State} {sel : Sel} {k : Nat} {w : Word} {rest : List HostAction} (hk : k < 8)
    (hp : s.port = none) (hh : s.host = .write (scalarAddr sel k) w :: rest) (hb : s.status.busy = false) :
    step s = .next { putScalar sel (putScalarWord (scalarOf sel s) k w) s with host := rest } := by
  rw [step_host hp hh, hostMove, hostWrite_scalarAddr sel hk w (s := { s with host := rest }) hb, writeScalarWord_eq]
  cases sel <;> rfl

/-- The host writes the words `ks` of a scalar; every other word stays. -/
theorem writeWords_run (sel : Sel) (v : Scalar) {rest : List HostAction} (ks : List Nat) :
    ∀ s : State, (∀ k ∈ ks, k < 8) → s.port = none → s.status.busy = false →
    s.host = ks.map (fun k => .write (scalarAddr sel k) (scalarWord v k)) ++ rest →
    ∃ x, RunsTo ks.length s { putScalar sel x s with host := rest } ∧
      ∀ j < 8, scalarWord x j = if j ∈ ks then scalarWord v j else scalarWord (scalarOf sel s) j := by
  induction ks with
  | nil =>
    intro s _ _ _ hh
    refine ⟨scalarOf sel s, ?_, fun j _ => by simp⟩
    rw [putScalar_scalarOf, ← show s.host = rest from hh]
    exact runsTo_zero s
  | cons k ks ih =>
    intro s hks hp hb hh
    have hk : k < 8 := hks k List.mem_cons_self
    have hstep := step_writeScalarWord hk hp hh hb
    obtain ⟨x, hrun, hx⟩ := ih { putScalar sel (putScalarWord (scalarOf sel s) k (scalarWord v k)) s with
      host := ks.map (fun k => .write (scalarAddr sel k) (scalarWord v k)) ++ rest }
      (fun j hj => hks j (List.mem_cons_of_mem _ hj)) (by cases sel <;> exact hp) (by cases sel <;> exact hb) rfl
    refine ⟨x, ?_, fun j hj => ?_⟩
    · have := RunsTo.step_then hstep hrun
      cases sel <;> exact this
    · rw [hx j hj]
      have hold : scalarOf sel { putScalar sel (putScalarWord (scalarOf sel s) k (scalarWord v k)) s with
          host := ks.map (fun k => HostAction.write (scalarAddr sel k) (scalarWord v k)) ++ rest } =
          putScalarWord (scalarOf sel s) k (scalarWord v k) := by cases sel <;> rfl
      rw [hold]
      by_cases hjk : j = k
      · subst hjk
        simp [scalarWord_putScalarWord_same _ hk]
      · simp [hjk, scalarWord_putScalarWord_other _ hk hjk]

/-- The host writes a whole scalar in eight steps (R103). -/
theorem writeScalar_run {sel : Sel} {v : Scalar} {rest : List HostAction} {s : State} (hp : s.port = none)
    (hb : s.status.busy = false) (hh : s.host = writeScalarActions sel v ++ rest) :
    RunsTo 8 s { putScalar sel v s with host := rest } := by
  obtain ⟨x, hrun, hx⟩ := writeWords_run sel v (List.range 8) s (fun k hk => List.mem_range.1 hk) hp hb hh
  obtain rfl : x = v := eq_of_scalarWord_eq fun k hk => by rw [hx k hk, if_pos (List.mem_range.2 hk)]
  exact hrun

/-- A host move that writes `AIN` (70_reset R266, R268). -/
theorem step_setPoint {s : State} {p : PD} {rest : List HostAction} (hp : s.port = none) (hh : s.host = .setPoint p :: rest)
    (hb : s.status.busy = false) : step s = .next { s with host := rest, slots := { s.slots with ain := some p } } := by
  rw [step_host hp hh]
  simp [hostMove, hostSetPoint, hb]

/-- The host writes the operands of a multiplication in 17 steps (R103). -/
theorem operands_run {s : State} {a b : Scalar} {p : PD} {rest : List HostAction} (hp : s.port = none)
    (hb : s.status.busy = false) (hh : s.host = operandActions a p b ++ rest) :
    RunsTo 17 s { s with sa := a, sb := b, slots := { s.slots with ain := some p }, host := rest } := by
  rw [operandActions, List.cons_append, List.append_assoc] at hh
  have hpoint := step_setPoint hp hh hb
  have hA := writeScalar_run (sel := .a) (v := a) (rest := writeScalarActions .b b ++ rest)
    (s := { s with host := writeScalarActions .a a ++ (writeScalarActions .b b ++ rest)
                   slots := { s.slots with ain := some p } }) hp hb rfl
  have hB := writeScalar_run (sel := .b) (v := b) (rest := rest)
    (s := { s with sa := a, host := writeScalarActions .b b ++ rest, slots := { s.slots with ain := some p } }) hp hb rfl
  exact ((runsTo_one hpoint).trans hA).trans hB

/-! ### The poll and the reads -/

/-- A unit step keeps the word at the point unit. -/
theorem unitStep_keeps_port {s t : State} (h : unitStep s = .next t) : t.port = s.port := by
  obtain ⟨rfl, -⟩ | ⟨-, -, rfl⟩ | ⟨-, r, hr, hi⟩ := unitStep_next h
  · rfl
  · obtain ⟨-, -, -, -, -, -, -, hport, -⟩ := encoderStep_keeps s
    exact hport
  · have hport := congrArg State.port (isRule_frame hr)
    obtain ⟨-, rfl⟩ | ⟨i, g, -, -, rfl, -⟩ := issueRule_next (isRule_isUop hr) hi <;> exact hport

/-- While the unit is busy a poll is a step of the unit (R102; log entry 15). -/
theorem step_poll_busy {s : State} {rest : List HostAction} (hp : s.port = none) (hh : s.host = .poll :: rest)
    (hb : s.status.busy = true) : step s = unitStep s := by
  rw [step_host hp hh, hostMove, hostPoll, if_pos hb, ← hh]

/-- The poll of an idle unit reads `STATUS` (R102). -/
theorem step_poll_idle {s : State} {rest : List HostAction} (hp : s.port = none) (hh : s.host = .poll :: rest)
    (hb : s.status.busy = false) : step s = .next (hostRead 0x001 { s with host := rest }) := by
  rw [step_host hp hh, hostMove, hostPoll, if_neg (by simp [hb])]

/-- A host move that reads `ROUT` (R268). -/
theorem step_readPoint {s : State} {r : PX} {rest : List HostAction} (hp : s.port = none) (hh : s.host = .readPoint :: rest)
    (hb : s.status.busy = false) (hr : s.slots.rout = some r) :
    step s = .next { s with host := rest, seen := s.seen ++ [.point r] } := by
  rw [step_host hp hh]
  simp [hostMove, hostReadPoint, hb, hr]

theorem unitRun_idle {s : State} (h : s.status.busy = false) (n : Nat) : unitRun n s = .next s := by
  induction n with
  | zero => rfl
  | succ n ih => rw [unitRun_succ (unitStep_idle h), ih]

/-- A poll lets the unit run: a run of the unit that ends busy is a run of the machine, since an idle unit stays idle. -/
theorem poll_run {rest : List HostAction} (n : Nat) :
    ∀ s t : State, s.port = none → s.host = .poll :: rest → unitRun n s = .next t → t.status.busy = true →
    RunsTo n s t := by
  induction n with
  | zero =>
    intro s t _ _ h _
    cases h
    exact runsTo_zero s
  | succ n ih =>
    intro s t hp hh h ht
    have hb : s.status.busy = true := by
      by_contra hidle
      rw [unitRun_idle (by simpa using hidle)] at h
      cases h
      exact hidle ht
    cases hu : unitStep s with
    | next u =>
      rw [unitRun_succ hu] at h
      obtain ⟨-, -, -, hhost, -, -⟩ := unitStep_keeps_operands hu
      exact .step_then ((step_poll_busy hp hh hb).trans hu)
        (ih u t ((unitStep_keeps_port hu).trans hp) (hhost.trans hh) h ht)
    | fault r => simp [unitRun, hu] at h
    | refused r => simp [unitRun, hu] at h

/-! ### The pseudo-command `multiply` -/

/-- The acceptance of `MUL` with both scalars in range (42_multiplier R173). -/
theorem exec_mul_accepted {s : State} (h : AcceptsCommand s) (ha : s.sa[255] = false) (hb : s.sb[255] = false) :
    exec .mul s = .next (startEncoding .a Config.wa (beginCommand .mEncA false s)) := by
  simp [exec, execMul, acceptMultiply, commandsIgnored_eq_false.2 h, ha, hb]

/-- The `CMD` write of `MUL`, the poll to the end of the multiplication, and the two reads. -/
theorem mulActions_run {s : State} {p : PD} {rest : List HostAction} (hport : s.port = none) (h : AcceptsCommand s)
    (ha : s.sa[255] = false) (hb : s.sb[255] = false) (hp : s.slots.ain = some p)
    (hh : s.host = [.write 0x000 (encode .mul), .poll, .readPoint] ++ rest) :
    ∃ t r, RunsTo (refSteps s.sa.toNat s.sb.toNat + 3) s t ∧ t.host = rest ∧ t.status.busy = false ∧
      t.status.done = true ∧ t.seen = s.seen ++ [.word 0x001 (statusWord t.status), .point r] ∧
      ∀ (G : Type) [AddCommGroup G] (c : PointContract G) (gen : G), TableOfB c gen →
        c.denPX r = s.sa.toNat • c.denPD p + s.sb.toNat • gen := by
  -- the acceptance
  obtain ⟨v, hv⟩ : ∃ v, v = startEncoding .a Config.wa (beginCommand .mEncA false { s with host := .poll :: .readPoint :: rest }) :=
    ⟨_, rfl⟩
  have hcmd : step s = .next v := by
    rw [step_cmdWrite hport hh h (decodeCmd_encode rfl), hv]
    exact exec_mul_accepted h ha hb
  -- the run to `M_OUT`, and its last step
  obtain ⟨u, hrun, hu⟩ := multiply_run (s := v) (p := p) (by rw [hv]; exact ⟨⟨rfl, rfl⟩, rfl⟩) (by rw [hv]; exact ha)
    (by rw [hv]; exact hb) (by rw [hv]; exact hp)
  have hsa : v.sa = s.sa := by rw [hv]; rfl
  have hsb : v.sb = s.sb := by rw [hv]; rfl
  rw [hsa, hsb] at hrun
  have huport : u.port = none := by rw [hu.frame, hv]; exact hport
  have huhost : u.host = .poll :: .readPoint :: rest := by rw [hu.frame, hv]; rfl
  have huseen : u.seen = s.seen := by rw [hu.frame, hv]; rfl
  have hpoll := poll_run _ v u (by rw [hv]; exact hport) (by rw [hv]; rfl) hrun hu.phase.1
  obtain ⟨q, hacc, hden⟩ := hu.acc
  rw [hsa, hsb] at hden
  obtain ⟨w, hw⟩ : ∃ w : State, w = { endCommand (writeScore u) with
    slots := { u.slots with rout := some (Config.toExt q) }, uops := u.uops ++ [encode (.toext .rout .acc .none)] } := ⟨_, rfl⟩
  have hout : step u = .next w := by
    rw [step_poll_busy huport huhost hu.phase.1, out_step hu.phase hacc, hw]
  -- the reads
  have hread : step w = .next (hostRead 0x001 { w with host := .readPoint :: rest }) :=
    step_poll_idle (by rw [hw]; exact huport) (by rw [hw]; exact huhost) (by rw [hw]; rfl)
  have hpoint := step_readPoint (s := hostRead 0x001 { w with host := .readPoint :: rest }) (r := Config.toExt q)
    (by rw [hw]; exact huport) rfl (by rw [hw]; rfl) (by rw [hw]; rfl)
  have hall := ((((runsTo_one hcmd).trans hpoll).trans (runsTo_one hout)).trans (runsTo_one hread)).trans (runsTo_one hpoint)
  have hsteps : 1 + (541 + 4 * refFirst s.sa.toNat s.sb.toNat + refCombines s.sa.toNat s.sb.toNat) + 1 + 1 + 1 =
      refSteps s.sa.toNat s.sb.toNat + 3 := by
    unfold refSteps
    omega
  rw [hsteps] at hall
  refine ⟨_, Config.toExt q, hall, rfl, by rw [hw]; rfl, by rw [hw]; rfl, ?_, fun G _ c gen hgen => ?_⟩
  · rw [hostRead_seen, hostReadWord_status, hw, List.append_assoc, ← huseen]
    rfl
  · rw [c.den_toExt, hden G c gen hgen]

/-- Settles O58: the operands' writes in 17 steps, then the command, the poll and the reads by `mulActions_run`. -/
theorem multiplyActionsReadTheDoubleBaseSum : Obligations.MultiplyActionsReadTheDoubleBaseSum := by
  intro s a b p rest hport h ha hb hh
  rw [multiplyActions, List.append_assoc] at hh
  obtain ⟨t, r, hrun, hhost, hbusy, hdone, hseen, hden⟩ := mulActions_run (p := p) (rest := rest)
    (s := { s with sa := a, sb := b, slots := { s.slots with ain := some p }
                   host := [.write 0x000 (encode .mul), .poll, .readPoint] ++ rest }) hport h ha hb rfl rfl
  refine ⟨t, r, ?_, hhost, hbusy, hdone, hseen, hden⟩
  rw [show refSteps a.toNat b.toNat + 20 = 17 + (refSteps a.toNat b.toNat + 3) by omega]
  exact (operands_run hport h.1 hh).trans hrun

end Sys2Proof.Machine
end

section
/-! PROOFS. The family of spec/40_naf_encoder.md: the acceptance of `ENC` and the frame of the commands, one encoder step, the
windowed form of the reference digits, and a whole `ENC`. -/

namespace Sys2Proof.Machine

/-! ### The commands -/

/-- Accepting a command writes no scalar (R120). -/
theorem scalarOf_beginCommand (sel : Sel) (q : Phase) (diag : Bool) (s : State) :
    scalarOf sel (beginCommand q diag s) = scalarOf sel s := by
  cases sel <;> rfl

/-- The acceptance of `ENC` with a legal width and the scalar in range (R120, R124). -/
theorem exec_enc_accepted {s : State} {w : BitVec 4} {sel : Sel} (h : AcceptsCommand s) (hw : legalWidth w = true)
    (hr : (scalarOf sel s)[255] = false) :
    exec (.enc w sel) s = .next (startEncoding sel w (beginCommand .eRun false s)) := by
  simp [exec, execEnc, commandsIgnored_eq_false.2 h, widthInRange, hw, hr]

/-- A command changes `STATUS`, the counters, the encoder registers, `q` and `diag` alone, in every state (R120, 42_multiplier R173,
60_exceptions R236). -/
theorem exec_command_frame {i : Instr} {s t : State} (hi : i.isCommand = true) (h : exec i s = .next t) :
    t = { s with
      status := t.status, iter := t.iter, skip := t.skip, score := t.score, enc := t.enc
      seq := { s.seq with q := t.seq.q, diag := t.seq.diag } } := by
  cases hn : commandsIgnored s with
  | true =>
    rw [exec_command_ignored hi hn] at h
    cases h
    rfl
  | false =>
    obtain ⟨c, sel, rfl⟩ | ⟨q, diag, sel, w, u, -, rfl | rfl, rfl⟩ :=
      exec_command_effect hi (commandsIgnored_eq_false.1 hn) h <;> rfl

/-- Only `MULS` writes the counters (42_multiplier R173). -/
theorem exec_command_keeps_counters {i : Instr} {s t : State} (hi : i.isCommand = true) (hm : i ≠ .muls)
    (h : exec i s = .next t) : t.iter = s.iter ∧ t.skip = s.skip ∧ t.score = s.score := by
  cases i with
  | enc w sel =>
    simp only [exec, execEnc] at h
    split_ifs at h <;> cases h <;> exact ⟨rfl, rfl, rfl⟩
  | mul =>
    cases h
    simp only [acceptMultiply, Bool.false_eq_true, if_false]
    split_ifs <;> exact ⟨rfl, rfl, rfl⟩
  | muls => exact absurd rfl hm
  | _ => cases hi

/-- Settles O7: the acceptance of `ENC`, written out field by field. -/
theorem encIsAcceptedAndStartsTheEncoding : Obligations.EncIsAcceptedAndStartsTheEncoding := by
  intro s w sel ha lo hi hr
  rw [exec_enc_accepted ha ((legalWidth_iff w).2 ⟨lo, hi⟩) hr, startEncoding, scalarOf_beginCommand]
  rfl

/-- Settles O13: an ignored command changes nothing, and an accepted or faulting one has an effect of `CommandEffect`. -/
theorem commandFrame : Obligations.CommandFrame := by
  intro i s t hi h
  have hframe := exec_command_frame hi h
  exact ⟨hframe, fun hm => exec_command_keeps_counters hi hm h, fun a => by rw [hframe]⟩

/-! ### One encoder step -/

/-- Inside a zero run the digit is 0 and the run is one shorter (R126). -/
theorem recode_zeroRun {e : EncState} (hz : e.ez ≠ 0) : recode e = { digit := 0, carry := e.ec, zeros := e.ez - 1 } :=
  if_pos hz

/-- An even window value gives the digit 0 and keeps the carry (R126). -/
theorem recode_even {e : EncState} (hz : e.ez = 0) (hev : windowValue e % 2 = 0) :
    recode e = { digit := 0, carry := e.ec, zeros := 0 } := by
  simp [recode, hz, hev]

/-- An odd window value with a clear top bit is the digit (R126). -/
theorem recode_odd_low {e : EncState} (hz : e.ez = 0) (hodd : windowValue e % 2 = 1)
    (ht : (windowValue e).testBit (e.ew.toNat - 1) = false) :
    recode e = { digit := windowValue e, carry := false, zeros := BitVec.ofNat 3 (e.ew.toNat - 1) } := by
  simp [recode, hz, hodd, ht]

/-- An odd window value with its top bit set, less `2 ^ ew`, is the digit, and the next carry is set (R126). -/
theorem recode_odd_high {e : EncState} (hz : e.ez = 0) (hodd : windowValue e % 2 = 1)
    (ht : (windowValue e).testBit (e.ew.toNat - 1) = true) :
    recode e = { digit := windowValue e - 2 ^ e.ew.toNat, carry := true, zeros := BitVec.ofNat 3 (e.ew.toNat - 1) } := by
  simp [recode, hz, hodd, ht]

/-- Before the last position a unit step writes the position's digit and moves on (R125 to R127). -/
theorem unitStep_writePosition {s : State} (hb : s.status.busy = true) (hE : Encoding s) (hp : s.enc.epos ≠ 255) :
    unitStep s = .next (writePosition s) := by
  rw [unitStep_encoding hb hE, encoderStep, if_neg hp]

/-- At the last position a unit step also ends the encoding (R128). -/
theorem unitStep_endEncoding {s : State} (hb : s.status.busy = true) (hE : Encoding s) (hp : s.enc.epos = 255) :
    unitStep s = .next (endEncoding (writePosition s)) := by
  rw [unitStep_encoding hb hE, encoderStep, if_pos hp]

/-- What writing the last position does to the state (R127). -/
theorem writePosition_last {s : State} (hp : s.enc.epos = 255) :
    writePosition s = { s with
      mem := memWrite s.mem (digitAddr s.enc.esel 255) (tc8 (recode s.enc).digit), enc := shiftEncoder s.enc } := by
  rw [writePosition, hp]
  rfl

/-- The end of the encoding of `ENC` ends the command (R128). -/
theorem endEncoding_eRun {s : State} (hq : s.seq.q = .eRun) : endEncoding s = endCommand s := by
  simp only [endEncoding, hq]

/-- The end of the encoding of `SA` in a multiplication starts that of `SB` (42_multiplier R174). -/
theorem endEncoding_mEncA {s : State} (hq : s.seq.q = .mEncA) :
    endEncoding s = startEncoding .b Config.wb { s with seq := { s.seq with q := .mEncB } } := by
  simp only [endEncoding, hq]

/-- The end of the encoding of `SB` in a multiplication starts the table build (42_multiplier R175). -/
theorem endEncoding_mEncB {s : State} (hq : s.seq.q = .mEncB) :
    endEncoding s = { s with seq := { s.seq with q := .mTbl, tstep := 0 } } := by
  simp only [endEncoding, hq]

/-- Settles O39: the four cases of R126 are the four cases of `recode`. -/
theorem encoderStepWritesOneDigit : Obligations.EncoderStepWritesOneDigit := by
  rintro s win d carry zeros hb hE hp rfl hcases
  have hlast : s.enc.epos ≠ 255 := fun e => by simp [e] at hp
  have hrec : recode s.enc = ⟨d, carry, zeros⟩ := by
    obtain ⟨hz, rfl, rfl, rfl⟩ | ⟨hz, hev, rfl, rfl, rfl⟩ | ⟨hz, hodd, ht, rfl, rfl, rfl⟩ |
      ⟨hz, hodd, ht, rfl, rfl, rfl⟩ := hcases
    · exact recode_zeroRun hz
    · exact recode_even hz hev
    · exact recode_odd_low hz hodd ht
    · exact recode_odd_high hz hodd ht
  rw [unitStep_writePosition hb hE hlast, writePosition, shiftEncoder, hrec]
  rfl

/-- Settles O40: the last digit is written, then the phase decides how the encoding ends. -/
theorem lastEncoderStepEndsTheEncoding : Obligations.LastEncoderStepEndsTheEncoding := by
  rintro s m hb hp rfl
  refine ⟨fun hq => ?_, fun hq => ?_, fun hq => ?_⟩
  · rw [unitStep_endEncoding hb (.inl hq) hp, endEncoding_eRun (s := writePosition s) hq, writePosition_last hp]
    rfl
  · rw [unitStep_endEncoding hb (.inr (.inl hq)) hp, endEncoding_mEncA (s := writePosition s) hq, writePosition_last hp]
    rfl
  · rw [unitStep_endEncoding hb (.inr (.inr hq)) hp, endEncoding_mEncB (s := writePosition s) hq, writePosition_last hp]

/-! ### The reference digits -/

/-- A nonzero digit takes the low `w` bits off the residual (R122). -/
theorem two_pow_dvd_sub_nafDigit {w k : Nat} (h : nafDigit w k ≠ 0) : (2 ^ w : Int) ∣ (k : Int) - nafDigit w k := by
  have hodd : k % 2 = 1 := by
    by_contra hev
    exact h (nafDigit_even (by omega))
  have hlow : (2 ^ w : Int) ∣ (k : Int) - ((k % 2 ^ w : Nat) : Int) := by
    push_cast
    exact Int.dvd_self_sub_emod
  rw [nafDigit_odd hodd]
  split_ifs
  · rw [← sub_add]
    exact hlow.add (dvd_refl _)
  · exact hlow

/-- The residual after a nonzero digit has `w − 1` zero bits at its end (R123 (3)). -/
theorem two_pow_dvd_nafResidual_succ {s w i : Nat} (hw : 1 ≤ w) (h : naf s w i ≠ 0) :
    2 ^ (w - 1) ∣ nafResidual s w (i + 1) := by
  have hrec : (nafResidual s w i : Int) - naf s w i = 2 * nafResidual s w (i + 1) := by
    rw [nafResidual_eq hw]
    ring
  have hdvd : (2 ^ w : Int) ∣ (nafResidual s w i : Int) - naf s w i := two_pow_dvd_sub_nafDigit h
  rw [hrec, ← mul_pow_sub_one (by omega : w ≠ 0) (2 : Int)] at hdvd
  exact_mod_cast Int.dvd_of_mul_dvd_mul_left (by norm_num) hdvd

/-- Zero bits at the end of a residual are zero digits (R122). -/
theorem naf_eq_zero_of_two_pow_dvd {s w : Nat} (hw : 1 ≤ w) {n i : Nat} (h : 2 ^ n ∣ nafResidual s w i) :
    ∀ j, i ≤ j → j < i + n → naf s w j = 0 := by
  induction n generalizing i with
  | zero =>
    intro j h1 h2
    omega
  | succ n ih =>
    obtain ⟨m, hm⟩ := h
    rw [pow_succ', Nat.mul_assoc] at hm
    have hzero : naf s w i = 0 := nafDigit_even (by omega)
    have hrec := nafResidual_eq hw s i
    intro j h1 h2
    obtain rfl | hlt := Nat.eq_or_lt_of_le h1
    · exact hzero
    · exact ih (i := i + 1) ⟨m, by omega⟩ j hlt (by omega)

/-- The residuals of 0 are 0 (R123 (4)). -/
theorem nafResidual_zero (w i : Nat) : nafResidual 0 w i = 0 := by
  induction i with
  | zero => rfl
  | succ i ih => rw [nafResidual_succ, ih, nafDigit_even rfl]; rfl

/-- Settles O41: the sum from the recurrence read upwards, the zeros from the powers of two that divide the residuals. -/
theorem nafDigitsAreAWindowedNafOfTheScalar : Obligations.NafDigitsAreAWindowedNafOfTheScalar := by
  intro s w hs lo _
  refine ⟨nafResidual_eq_zero lo hs, ?_, fun i hne => ?_, ?_⟩
  · rw [← digitSum_eq, digitSum_naf lo hs]
  · obtain ⟨hodd, hle⟩ := (naf_bound lo s i).resolve_left hne
    exact ⟨hodd, hle, fun j h1 h2 => naf_eq_zero_of_two_pow_dvd (by omega)
      (two_pow_dvd_nafResidual_succ (by omega) hne) j h1 (by omega)⟩
  · rintro rfl i
    rw [naf, nafResidual_zero, nafDigit_even rfl]

/-! ### The whole of `ENC` -/

/-- Settles O42: the acceptance, then the run of the 256 positions, whose last step ends the command. -/
theorem encWritesTheNafDigits : Obligations.EncWritesTheNafDigits := by
  intro s w sel ha lo hi hr
  have hat := encAt_startEncoding (s := beginCommand .eRun false s) rfl (.inl rfl) sel w
  rw [scalarOf_beginCommand] at hat
  obtain ⟨u, hrun, hkeep, hdigits, hout⟩ := encoding_run lo hi hat
  have hq : u.seq.q = .eRun := by rw [hkeep]; rfl
  rw [endEncoding_eRun hq] at hrun
  refine ⟨_, endCommand u, exec_enc_accepted ha ((legalWidth_iff w).2 ⟨lo, hi⟩) hr, hrun, hdigits, hout, ?_⟩
  rw [hkeep]
  rfl

end Sys2Proof.Machine
end

section
/-! PROOFS. The family of spec/41_table_builder.md: the table build and what its slots denote. -/

namespace Sys2Proof.Machine

/-- The table build writes no `AIN` (R154). -/
theorem BuiltTo.ain_eq {p : PD} {j : Nat} {f g : SlotFile} (h : BuiltTo p j f g) : g.ain = f.ain := by
  rw [h.frame]

/-- The table build leaves the doubled point in `D` (R153, step 0). -/
theorem BuiltTo.d_eq {p : PD} {j : Nat} {f g : SlotFile} (h : BuiltTo p j f g) : g.d = some (Config.double p) := by
  rw [h.frame]

/-- Settles O44: the 23 steps by `table_run`, whose induction over the entries fixes the values in the slots; what the values denote follows
from the contract, for the entries by `denPS_oddMultiple`. -/
theorem tableBuildHoldsTheOddMultiples : Obligations.TableBuildHoldsTheOddMultiples := by
  intro s p h h0 hp
  obtain ⟨g, hrun, hg⟩ := table_run h h0 hp
  refine ⟨_, hrun, ⟨h.1, rfl⟩, hg.ain_eq.trans hp, rfl, fun G _ c => ⟨?_, fun j => ?_⟩⟩
  · exact ⟨Config.double p, hg.d_eq, (c.den_double p).trans (two_nsmul _).symm⟩
  · exact ⟨oddMultiple p j, hg.entry j (by omega), denPS_oddMultiple c p j⟩

end Sys2Proof.Machine
end

section
/-! PROOFS. The steps of the sequencer one by one (spec/42_multiplier.md R172 to R191), and what a unit step is and issues. -/

namespace Sys2Proof.Machine

/-! ### The step of the unit -/

/-- Settles O33: a word at the point unit, and a word that a rule issues, are decoded back to their micro-operation. -/
theorem stepRunsTheDecodedMicroOp : Obligations.StepRunsTheDecodedMicroOp :=
  ⟨fun _ _ _ hp hd => (step_port hp).trans (pointUnit_decoded hd), fun _ t hi => issueRule_some hi t⟩

/-- Settles O35: the host has nothing to do, or its move is the unit's step. -/
theorem stepIsTheUnitsStep : Obligations.StepIsTheUnitsStep := by
  intro s rest hp
  exact ⟨step_unit hp, step_host hp, step_poll_busy hp⟩

/-- Settles O36: only a busy unit has a step. -/
theorem idleUnitKeepsItsState : Obligations.IdleUnitKeepsItsState := fun _ => unitStep_idle

/-- Settles O38: an encoder step issues nothing, and a rule of the sequencer at most one micro-operation, a legal one. -/
theorem unitIssuesOnlyTableWords : Obligations.UnitIssuesOnlyTableWords := by
  intro s t h
  obtain ⟨rfl, -⟩ | ⟨-, -, rfl⟩ | ⟨-, r, hr, hi⟩ := unitStep_next h
  · exact .inl rfl
  · obtain ⟨-, -, -, huops, -⟩ := encoderStep_keeps s
    exact .inl huops
  · have huops : r.2.uops = s.uops := by rw [isRule_frame hr]
    obtain ⟨-, rfl⟩ | ⟨i, g, hissued, hw, rfl, -⟩ := issueRule_next (isRule_isUop hr) hi
    · exact .inl huops
    · have hword : R99Word (encode i) := r99Word_iff.2 ⟨i, issuedUop_iff.2 ⟨isRule_isUop hr i hissued, hw⟩, rfl⟩
      exact .inr ⟨encode i, hword, by rw [huops]⟩

/-! ### The phases before the loop and after it -/

/-- Settles O43: `tstep` names the micro-operation, and 22 is the last. -/
theorem tablePhaseIssuesTheNextEntry : Obligations.TablePhaseIssuesTheNextEntry := by
  intro s h
  refine ⟨fun hlt => ?_, fun hlast => ?_⟩
  · have hne : s.seq.tstep ≠ 22 := fun e => by simp [e] at hlt
    rw [unitStep_tableUop h rfl, tableRule, if_neg hne]
  · rw [unitStep_tableUop (n := 22) h (by rw [hlast]; rfl), tableRule, if_pos hlast]
    rfl

/-- The starting index is a position (R177). -/
theorem startIndex_lt (s : State) : startIndex s < 256 := by
  obtain ⟨-, -, hle⟩ := highest_spec (positionUsed s) 256
  exact Nat.lt_of_le_of_lt hle (by decide)

/-- A position is used where either digit is nonzero (R177). -/
theorem positionUsed_iff {s : State} {i : BitVec 8} :
    positionUsed s i.toNat = true ↔ digitByte .a i s ≠ 0 ∨ digitByte .b i s ≠ 0 := by
  simp [positionUsed]

/-- Settles O45, by `highest_spec`. -/
theorem scanFindsTheHighestNonzeroPosition : Obligations.ScanFindsTheHighestNonzeroPosition := by
  intro s h
  obtain ⟨habove, hused, -⟩ := highest_spec (positionUsed s) 256
  have hli : (BitVec.ofNat 8 (startIndex s)).toNat = startIndex s := Nat.mod_eq_of_lt (startIndex_lt s)
  refine ⟨(scanRule s).2, unitStep_mScan h, rfl, fun i hi => ?_, ?_⟩
  · have hlt : startIndex s < i.toNat := by
      rw [← hli]
      exact hi
    have hunused := mt positionUsed_iff.2 (Bool.eq_false_iff.1 (habove i.toNat hlt i.isLt))
    tauto
  · show digitByte .a (BitVec.ofNat 8 (startIndex s)) s ≠ 0 ∨ digitByte .b (BitVec.ofNat 8 (startIndex s)) s ≠ 0 ∨
      BitVec.ofNat 8 (startIndex s) = 0
    obtain hp | h0 := hused
    · have := positionUsed_iff.1 (hli.symm ▸ hp : positionUsed s (BitVec.ofNat 8 (startIndex s)).toNat = true)
      tauto
    · exact .inr (.inr (congrArg (BitVec.ofNat 8) h0))

/-- Settles O46: the step of `M_INIT`, its word written out. -/
theorem initPhaseIssuesIdent : Obligations.InitPhaseIssuesIdent := fun _ => init_step

/-- Settles O52: the step of `M_OUT`, its word and the end of the command written out. -/
theorem outPhaseWritesTheResult : Obligations.OutPhaseWritesTheResult := fun _ _ => out_step

/-! ### The loop -/

/-- Settles O47: the rule of `L_DBL` issues `DBL ACC, ACC`, whose source holds a value. -/
theorem loopDoublesTheAccumulator : Obligations.LoopDoublesTheAccumulator := by
  intro s p ⟨hs, hl⟩ hp
  have hrule : loopRule s = doubleRule s := by rw [loopRule, hl]
  rw [unitStep_mLoop hs, hrule, doubleRule, issueRule_some rfl]
  refine exec_uop_some rfl rfl ?_
  simp [uopSlots, slotPD, putPD, hp]

section
variable {sel : Sel} {conv next : LoopSub} {s : State} {v : Byte} {x : Slot} {p : PD} {t : PS} (hs : AtPhase s .mLoop)
  (hl : loopRule s = combineRule sel conv next s) (hv : memRead s.mem (digitAddr sel s.seq.li) = some v)
include hs hl hv

/-- The sign of a stored digit chooses its combination (R181 to R183, R186, R187). -/
theorem combine_step :
    (0 < v.toInt → unitStep s = exec (.add .tmp .acc (tableSlot sel v)) (gotoSub conv s)) ∧
    (v.toInt < 0 → unitStep s = exec (.sub .tmp .acc (tableSlot sel v)) (gotoSub conv s)) ∧
    (v.toInt = 0 → unitStep s = .next (gotoSub next (countSkip s))) := by
  have hbyte : digitByte sel s.seq.li s = v := by simp [digitByte, hv]
  have hsign := signClass_eq v
  rw [unitStep_mLoop hs, hl, combineRule, hbyte]
  refine ⟨fun h => ?_, fun h => ?_, fun h => ?_⟩
  · rw [if_neg (by omega), if_neg (by omega)] at hsign
    rw [hsign]
    exact issueRule_some rfl _
  · rw [if_neg (by omega), if_pos h] at hsign
    rw [hsign]
    exact issueRule_some rfl _
  · rw [if_pos h] at hsign
    rw [hsign]
    exact issueRule_none _

/-- A positive digit adds its table entry (R182, R186). -/
theorem combine_add (h : 0 < v.toInt) (hx : tableSlot sel v = x) (hw : (Instr.add .tmp .acc x).wellFormed = true)
    (hp : s.slots.acc = some p) (ht : slotPS s.slots x = some t) :
    unitStep s = .next { s with
      slots := { s.slots with tmp := some (Config.cadd p t) }, uops := s.uops ++ [encode (.add .tmp .acc x)]
      seq := { s.seq with lsub := conv } } := by
  obtain ⟨hadd, -, -⟩ := combine_step hs hl hv
  rw [hadd h, hx]
  refine exec_uop_some rfl hw ?_
  simp only [uopSlots, gotoSub_slots, slotPD, putPI, hp, ht, Option.map_some, Option.bind_some]

/-- A negative digit subtracts its table entry (R182, R186). -/
theorem combine_sub (h : v.toInt < 0) (hx : tableSlot sel v = x) (hw : (Instr.sub .tmp .acc x).wellFormed = true)
    (hp : s.slots.acc = some p) (ht : slotPS s.slots x = some t) :
    unitStep s = .next { s with
      slots := { s.slots with tmp := some (Config.csub p t) }, uops := s.uops ++ [encode (.sub .tmp .acc x)]
      seq := { s.seq with lsub := conv } } := by
  obtain ⟨-, hsub, -⟩ := combine_step hs hl hv
  rw [hsub h, hx]
  refine exec_uop_some rfl hw ?_
  simp only [uopSlots, gotoSub_slots, slotPD, putPI, hp, ht, Option.map_some, Option.bind_some]

/-- A zero digit is a skip, counted when `diag` is 1 (R183, R187). -/
theorem combine_skip (h : v.toInt = 0) : unitStep s = .next (gotoSub next (countSkip s)) := by
  obtain ⟨-, -, hskip⟩ := combine_step hs hl hv
  exact hskip h

end

/-- A digit of the range of the table of A selects its entry (41_table_builder R156). -/
theorem tableSlot_a {v : Byte} {j : Fin 8} (h : j.val = v.toInt.natAbs / 2) : tableSlot .a v = .ta j := by
  rw [tableSlot, tableIndex, digitValue, ← h, slotOfNumber_ta j.isLt]
  exact congrArg Slot.ta (Fin.ext (Nat.mod_eq_of_lt j.isLt))

/-- A digit of the range of the table of B selects its entry (41_table_builder R156). -/
theorem tableSlot_b {v : Byte} {j : Fin 64} (h : j.val = v.toInt.natAbs / 2) : tableSlot .b v = .tb j := by
  rw [tableSlot, tableIndex, digitValue, ← h, slotOfNumber_tb j.isLt]
  exact congrArg Slot.tb (Fin.ext (Nat.mod_eq_of_lt j.isLt))

/-- Settles O48: the digit's sign, then its entry of the table of A. -/
theorem loopCombinesWithTableA : Obligations.LoopCombinesWithTableA := by
  intro s v p j t ⟨hs, hsub⟩ hv
  have hl : loopRule s = combineRule .a .lAcv .lB s := by rw [loopRule, hsub]
  refine ⟨fun h hj hp ht => ?_, fun h hj hp ht => ?_, combine_skip hs hl hv⟩
  · rw [← encode_add_acc_ta]
    exact combine_add hs hl hv h (tableSlot_a hj) rfl hp ht
  · rw [← encode_sub_acc_ta]
    exact combine_sub hs hl hv h (tableSlot_a hj) rfl hp ht

/-- Settles O49: the digit's sign, then its entry of the table of B, which always holds a value. -/
theorem loopCombinesWithTableB : Obligations.LoopCombinesWithTableB := by
  intro s v p j ⟨hs, hsub⟩ hv
  have hl : loopRule s = combineRule .b .lBcv .lNext s := by rw [loopRule, hsub]
  refine ⟨fun h hj hp => ?_, fun h hj hp => ?_, combine_skip hs hl hv⟩
  · rw [← encode_add_acc_tb]
    exact combine_add hs hl hv h (tableSlot_b hj) rfl hp rfl
  · rw [← encode_sub_acc_tb]
    exact combine_sub hs hl hv h (tableSlot_b hj) rfl hp rfl

/-- Settles O50: both sub-steps are `convert_step`. -/
theorem loopConvertsAfterACombine : Obligations.LoopConvertsAfterACombine := by
  intro s p hp
  exact ⟨fun ⟨hs, hl⟩ => convert_step hs (by rw [loopRule, hl]) hp, fun ⟨hs, hl⟩ => convert_step hs (by rw [loopRule, hl]) hp⟩

/-- Settles O51: the two branches of `nextRule`. -/
theorem loopCountsDownToZero : Obligations.LoopCountsDownToZero := by
  intro s ⟨hs, hl⟩
  have hstep : unitStep s = .next (nextRule s).2 := by
    rw [unitStep_mLoop hs, loopRule, hl]
    exact issueRule_none _
  refine ⟨fun hpos => ?_, fun hzero => ?_⟩
  · have hne : s.seq.li ≠ 0 := fun e => by simp [e] at hpos
    rw [hstep, nextRule, if_neg hne]
  · rw [hstep, nextRule, if_pos hzero]

end Sys2Proof.Machine
end

section
/-! PROOFS. A whole multiplication (spec/42_multiplier.md R170 to R200): its acceptance, its run to the end, and the length of the closed form. -/

namespace Sys2Proof.Machine

/-! ### The acceptance -/

/-- The state an accepted `MUL` (`diag` 0) or `MULS` (`diag` 1) leaves (R173). -/
def mulAccepted (diag : Bool) (s : State) : State :=
  startEncoding .a Config.wa (beginCommand .mEncA diag (if diag then clearCounters s else s))

/-- The acceptance of `MULS` with both scalars in range (R173). -/
theorem exec_muls_accepted {s : State} (h : AcceptsCommand s) (ha : s.sa[255] = false) (hb : s.sb[255] = false) :
    exec .muls s = .next (mulAccepted true s) := by
  simp [exec, execMuls, acceptMultiply, mulAccepted, commandsIgnored_eq_false.2 h, ha, hb]

/-- The acceptance of either command (R173). -/
theorem exec_multiply_accepted {s : State} {i : Instr} (hi : i = .mul ∨ i = .muls) (h : AcceptsCommand s)
    (ha : s.sa[255] = false) (hb : s.sb[255] = false) : ∃ diag, exec i s = .next (mulAccepted diag s) := by
  rcases hi with rfl | rfl
  · exact ⟨false, exec_mul_accepted h ha hb⟩
  · exact ⟨true, exec_muls_accepted h ha hb⟩

/-- Acceptance clears the counters for `MULS` and writes nothing but `STATUS`, the encoder registers, `q` and `diag` besides (R173). -/
theorem mulAccepted_frame (diag : Bool) (s : State) :
    mulAccepted diag s = { s with
      status := { s.status with busy := true, done := false }
      seq := { s.seq with q := .mEncA, diag := diag }
      enc := { ex := s.sa, ec := false, ez := 0, epos := 0, ew := 5, esel := .a }
      iter := if diag then 0 else s.iter
      skip := if diag then 0 else s.skip
      score := if diag then 0 else s.score } := by
  cases diag <;> rfl

@[simp] theorem mulAccepted_sa (diag : Bool) (s : State) : (mulAccepted diag s).sa = s.sa := by rw [mulAccepted_frame]

@[simp] theorem mulAccepted_sb (diag : Bool) (s : State) : (mulAccepted diag s).sb = s.sb := by rw [mulAccepted_frame]

@[simp] theorem mulAccepted_slots (diag : Bool) (s : State) : (mulAccepted diag s).slots = s.slots := by
  rw [mulAccepted_frame]

/-- Settles O8: the acceptance of `MUL` and of `MULS`, written out field by field. -/
theorem mulAndMulsAreAcceptedAndEncodeSAFirst : Obligations.MulAndMulsAreAcceptedAndEncodeSAFirst := by
  intro s h ha hb
  exact ⟨exec_mul_accepted h ha hb, exec_muls_accepted h ha hb⟩

/-! ### The run to the end -/

/-- The state the last step of a multiplication leaves, the accumulator holding `q` (R191). -/
def mulFinished (q : PD) (u : State) : State :=
  { endCommand (writeScore u) with
    slots := { u.slots with rout := some (Config.toExt q) }, uops := u.uops ++ [encode (.toext .rout .acc .none)] }

/-- An accepted multiplication runs to its end in the steps of R276: `multiply_run` to `M_OUT`, then the step of `M_OUT`. -/
theorem mulAccepted_run {s : State} {p : PD} (ha : s.sa[255] = false) (hb : s.sb[255] = false)
    (hp : s.slots.ain = some p) (diag : Bool) :
    ∃ u q, ReachesOut p (mulAccepted diag s) u ∧
      unitRun (refSteps s.sa.toNat s.sb.toNat) (mulAccepted diag s) = .next (mulFinished q u) ∧
      ∀ (G : Type) [AddCommGroup G] (c : PointContract G) (gen : G), TableOfB c gen →
        c.denPD q = s.sa.toNat • c.denPD p + s.sb.toNat • gen := by
  have hstart : MulStarted (mulAccepted diag s) := by
    rw [mulAccepted_frame]
    exact ⟨⟨rfl, rfl⟩, rfl⟩
  obtain ⟨u, hrun, hu⟩ := multiply_run (p := p) hstart (by rw [mulAccepted_sa]; exact ha)
    (by rw [mulAccepted_sb]; exact hb) (by rw [mulAccepted_slots]; exact hp)
  obtain ⟨q, hacc, hden⟩ := hu.acc
  rw [mulAccepted_sa, mulAccepted_sb] at hrun hden
  refine ⟨u, q, hu, ?_, hden⟩
  rw [show refSteps s.sa.toNat s.sb.toNat = 541 + 4 * refFirst s.sa.toNat s.sb.toNat + refCombines s.sa.toNat s.sb.toNat + 1 by
    unfold refSteps; omega, unitRun_add hrun]
  exact unitRun_one (out_step hu.phase hacc)

/-- Settles O54: the state that `ReachesOut` describes, and the last step from it. -/
theorem multiplicationIssuesTheClosedForm : Obligations.MultiplicationIssuesTheClosedForm := by
  intro s p i hi h ha hb hp
  obtain ⟨diag, hexec⟩ := exec_multiply_accepted hi h ha hb
  obtain ⟨u, q, hu, hrun, -⟩ := mulAccepted_run ha hb hp diag
  have hframe := hu.frame
  have hA := hu.digitsA
  have hB := hu.digitsB
  simp only [mulAccepted_frame diag s] at hframe hA hB
  refine ⟨_, _, hexec, hrun, ?_, rfl, ?_, hA, hB, ?_, ?_, hu.ain⟩
  · show { u.status with busy := false, done := true } = _
    rw [hframe]
  · show u.uops ++ _ = _
    rw [hframe]
    simp [refUops, refFirst]
  · show u.sa = _
    rw [hframe]
  · show u.sb = _
    rw [hframe]

/-- Settles O55: the last step converts the accumulator, which denotes the sum. -/
theorem multiplicationComputesTheDoubleBaseSum : Obligations.MultiplicationComputesTheDoubleBaseSum := by
  intro s p i hi h ha hb hp
  obtain ⟨diag, hexec⟩ := exec_multiply_accepted hi h ha hb
  obtain ⟨u, q, -, hrun, hden⟩ := mulAccepted_run ha hb hp diag
  exact ⟨_, _, Config.toExt q, hexec, hrun, rfl, rfl, rfl, fun G _ c gen hgen => (c.den_toExt q).trans (hden G c gen hgen)⟩

/-! ### The counters -/

/-- Every position has a zero digit or a nonzero one. -/
theorem zeroCount_add_nonzeroCount (d : Nat → Int) (n : Nat) : zeroCount d n + nonzeroCount d n = n := by
  induction n with
  | zero => rfl
  | succ n ih =>
    rw [zeroCount, nonzeroCount]
    split_ifs <;> omega

/-- The score `2·ITER − SKIP` of R191 does not wrap while `SKIP` is at most twice `ITER` and twice `ITER` fits. -/
theorem toNat_score {x : BitVec 9} {y : BitVec 10} (hy : y.toNat ≤ 2 * x.toNat) (hx : x.toNat ≤ 256) :
    (2 * x.setWidth 10 - y).toNat + y.toNat = 2 * x.toNat := by
  have htwice : (2 * x.setWidth 10).toNat = 2 * x.toNat := by
    rw [BitVec.toNat_mul, BitVec.toNat_setWidth, show (2 : BitVec 10).toNat = 2 from rfl]
    omega
  rw [BitVec.toNat_sub_of_le (by rw [BitVec.le_def, htwice]; exact hy), htwice]
  omega

/-- Settles O56: `ITER` and `SKIP` at `M_OUT` are those of `ReachesOut`, and no counter wraps, since a position is counted at most once as
an iteration and at most twice as a skip. -/
theorem countersAfterAMultiplication : Obligations.CountersAfterAMultiplication := by
  rintro s p a b h ha hb hp rfl rfl
  constructor
  · obtain ⟨u, q, hu, hrun, -⟩ := mulAccepted_run ha hb hp true
    have hdiag := congrArg (fun t : State => t.seq.diag) hu.frame
    have hiter := hu.iter
    have hskip := hu.skip
    simp only [mulAccepted_frame true s, if_true, zero_add] at hdiag hiter hskip
    have hlt := (refFirst_spec s.sa.toNat s.sb.toNat).1
    have hcombines := refCombines_eq s.sa.toNat s.sb.toNat
    have hcountA := zeroCount_add_nonzeroCount (naf s.sa.toNat 5) (refFirst s.sa.toNat s.sb.toNat + 1)
    have hcountB := zeroCount_add_nonzeroCount (naf s.sb.toNat 8) (refFirst s.sa.toNat s.sb.toNat + 1)
    have hiterNat : u.iter.toNat = refFirst s.sa.toNat s.sb.toNat + 1 := by
      rw [hiter, BitVec.toNat_ofNat]
      omega
    have hskipNat : u.skip.toNat = zeroCount (naf s.sa.toNat 5) (refFirst s.sa.toNat s.sb.toNat + 1) +
        zeroCount (naf s.sb.toNat 8) (refFirst s.sa.toNat s.sb.toNat + 1) := by
      rw [hskip, BitVec.toNat_ofNat]
      omega
    have hscore : (mulFinished q u).score = 2 * u.iter.setWidth 10 - u.skip := if_pos hdiag
    have hsum : (mulFinished q u).score.toNat + u.skip.toNat = 2 * u.iter.toNat := by
      rw [hscore]
      exact toNat_score (by omega) (by omega)
    exact ⟨_, _, exec_muls_accepted h ha hb, hrun, rfl, hiterNat, hskipNat, hsum, by omega⟩
  · obtain ⟨u, q, hu, hrun, -⟩ := mulAccepted_run ha hb hp false
    have hframe := hu.frame
    have hiter := hu.iter
    have hskip := hu.skip
    simp only [mulAccepted_frame false s] at hframe hiter hskip
    refine ⟨_, _, exec_mul_accepted h ha hb, hrun, rfl, hiter, hskip, ?_⟩
    show (writeScore u).score = s.score
    rw [hframe]
    rfl

/-! ### The closed form's length -/

/-- A digit is combined by two micro-operations, or by none (R200). -/
theorem length_refCombine (sel : Sel) (d : Int) : (refCombine sel d).length = 2 * if d = 0 then 0 else 1 := by
  unfold refCombine
  split_ifs <;> rfl

/-- The loop doubles once at each position and issues two micro-operations for each nonzero digit (R200). -/
theorem length_refLoop (na nb : Nat → Int) (i : Nat) :
    (refLoop na nb i).length = i + 1 + 2 * (nonzeroCount na (i + 1) + nonzeroCount nb (i + 1)) := by
  induction i with
  | zero =>
    simp only [refLoop, refIteration, List.length_cons, List.length_append, length_refCombine, nonzeroCount]
    omega
  | succ i ih =>
    have hcount (d : Nat → Int) : nonzeroCount d (i + 1 + 1) = nonzeroCount d (i + 1) + if d (i + 1) = 0 then 0 else 1 := rfl
    rw [refLoop, List.length_append, ih, hcount, hcount]
    simp only [refIteration, List.length_cons, List.length_append, length_refCombine]
    omega

/-- The length of the closed form (R200). -/
theorem length_refUops (a b : Nat) : (refUops a b).length = 26 + refFirst a b + 2 * refCombines a b := by
  have htable : refTableBuild.length = 23 := by simp [refTableBuild]
  have hloop := length_refLoop (naf a 5) (naf b 8) (refFirst a b)
  rw [← refCombines_eq] at hloop
  simp only [refUops, List.length_append, List.length_singleton, htable]
  rw [show refStart (naf a 5) (naf b 8) = refFirst a b from rfl]
  omega

/-- Nonzero digits that stand at least `w` positions apart are at most one in `w`, rounded up. -/
theorem nonzeroCount_of_spaced {d : Nat → Int} {w : Nat} (hw : 1 ≤ w)
    (hd : ∀ i, d i ≠ 0 → ∀ j, i < j → j < i + w → d j = 0) (n : Nat) : w * nonzeroCount d n ≤ n + (w - 1) := by
  induction n using Nat.strongRecOn with
  | ind n ih =>
    cases n with
    | zero => simp [nonzeroCount]
    | succ n =>
      rw [nonzeroCount]
      split_ifs with hn
      · have := ih n (by omega)
        rw [add_zero]
        omega
      · -- the `w − 1` positions below a nonzero digit hold zeros
        have hbelow : nonzeroCount d n = nonzeroCount d (n + 1 - w) := by
          refine nonzeroCount_of_zeros (by omega) fun i h1 h2 => ?_
          by_contra hi
          exact hn (hd i hi n h2 (by omega))
        have := ih (n + 1 - w) (by omega)
        rw [hbelow, Nat.mul_add]
        rcases Nat.lt_or_ge n w with hlt | hge
        · rw [show n + 1 - w = 0 by omega] at this ⊢
          simp [nonzeroCount]
          omega
        · omega

/-- Nonzero digits of a width-`w` sequence stand at least `w` positions apart (40_naf_encoder R123 (3)). -/
theorem naf_spaced {w : Nat} (hw : 1 ≤ w) (s : Nat) :
    ∀ i, naf s w i ≠ 0 → ∀ j, i < j → j < i + w → naf s w j = 0 := fun _ hi j h1 h2 =>
  naf_eq_zero_of_two_pow_dvd hw (two_pow_dvd_nafResidual_succ hw hi) j h1 (by omega)

/-- A multiplication combines at most 52 digits of a and 32 of b (R277). -/
theorem refCombines_le (a b : Nat) : refCombines a b ≤ 84 := by
  have hA := nonzeroCount_of_spaced (by decide) (naf_spaced (w := 5) (by decide) a) 256
  have hB := nonzeroCount_of_spaced (by decide) (naf_spaced (w := 8) (by decide) b) 256
  show nonzeroCount (naf a 5) 256 + nonzeroCount (naf b 8) 256 ≤ 84
  omega

/-- Settles O53: the length by `length_refUops`; the starting index is a position and nonzero digits are spaced, which bound the rest. -/
theorem multiplicationLengthAndBounds : Obligations.MultiplicationLengthAndBounds := by
  intro a b _ _
  have hlen := length_refUops a b
  have hfirst := (refFirst_spec a b).1
  have hcombines := refCombines_le a b
  unfold refSteps
  omega

end Sys2Proof.Machine
end

section
/-! PROOFS. The diagnostic counters never feed back into a run (spec/42_multiplier.md R199): every step of the unit takes two states that differ at
most in `diag` and the counters to such states, or to the same fault or refusal. -/

namespace Sys2Proof.Machine

/-! ### The relation -/

/-- The state with `ITER`, `SKIP`, `SCORE` and `diag` replaced. -/
def withDiag (i : BitVec 9) (k c : BitVec 10) (d : Bool) (s : State) : State :=
  { s with iter := i, skip := k, score := c, seq := { s.seq with diag := d } }

theorem sameButDiag_iff {s t : State} : SameButDiag s t ↔ ∃ i k c d, t = withDiag i k c d s :=
  ⟨fun h => ⟨_, _, _, _, h⟩, fun ⟨_, _, _, _, h⟩ => by rw [h]; rfl⟩

theorem sameButDiag_withDiag (i : BitVec 9) (k c : BitVec 10) (d : Bool) (s : State) : SameButDiag s (withDiag i k c d s) := rfl

/-! ### The encoder -/

/-- The encoder reads no counter and no `diag` (40_naf_encoder R125 to R128). -/
theorem encoderStep_withDiag (i : BitVec 9) (k c : BitVec 10) (d : Bool) (s : State) :
    encoderStep (withDiag i k c d s) = withDiag i k c d (encoderStep s) := by
  have hend (u : State) : endEncoding (withDiag i k c d u) = withDiag i k c d (endEncoding u) := by
    unfold endEncoding
    rw [show (withDiag i k c d u).seq.q = u.seq.q from rfl]
    cases u.seq.q <;> rfl
  unfold encoderStep
  rw [show (withDiag i k c d s).enc.epos = s.enc.epos from rfl,
    show writePosition (withDiag i k c d s) = withDiag i k c d (writePosition s) from rfl]
  split_ifs
  · exact hend _
  · rfl

/-! ### The sequencer -/

/-- A micro-operation reads the slots alone (43_point_ops R212). -/
theorem exec_uop_sameButDiag {s t : State} {i : Instr} (hi : i.isCommand = false) (h : SameButDiag s t) :
    OutcomesRelated SameButDiag (exec i s) (exec i t) := by
  obtain ⟨x, y, z, d, rfl⟩ := sameButDiag_iff.1 h
  rw [exec_uop hi, exec_uop hi]
  show OutcomesRelated _ _ (performUop i (uopSlots s.slots i) _)
  unfold performUop
  cases uopLegal i with
  | false => rfl
  | true =>
    cases uopSlots s.slots i with
    | none => rfl
    | some g => rfl

/-- Two rules issue the same micro-operation, if any, and their own writes leave states that differ at most in `diag` and the counters. -/
def SameRule (r r' : Option Instr × State) : Prop := r'.1 = r.1 ∧ SameButDiag r.2 r'.2

/-- A sequencer step keeps the relation when its rule does. -/
theorem issueRule_sameRule {r r' : Option Instr × State} (hi : ∀ i ∈ r.1, i.isCommand = false) (h : SameRule r r') :
    OutcomesRelated SameButDiag (issueRule r) (issueRule r') := by
  obtain ⟨o, u⟩ := r
  obtain ⟨o', u'⟩ := r'
  obtain ⟨rfl, hu⟩ : o' = o ∧ SameButDiag u u' := h
  cases o' with
  | none => exact hu
  | some i =>
    rw [issueRule_some (hi i rfl), issueRule_some (hi i rfl)]
    exact exec_uop_sameButDiag (hi i rfl) hu

section
variable (i : BitVec 9) (k c : BitVec 10) (d : Bool) (s : State)

theorem tableRule_sameRule : SameRule (tableRule s) (tableRule (withDiag i k c d s)) := by
  refine ⟨rfl, ?_⟩
  unfold tableRule
  rw [show (withDiag i k c d s).seq.tstep = s.seq.tstep from rfl]
  dsimp only
  split_ifs <;> rfl

/-- The digits do not depend on the counters, nor does the choice by the sign class (R182, R183). -/
theorem combineRule_sameRule (sel : Sel) (conv next : LoopSub) :
    SameRule (combineRule sel conv next s) (combineRule sel conv next (withDiag i k c d s)) := by
  unfold combineRule
  rw [show digitByte sel (withDiag i k c d s).seq.li (withDiag i k c d s) = digitByte sel s.seq.li s from rfl]
  cases signClass (digitByte sel s.seq.li s) <;> exact ⟨rfl, rfl⟩

theorem nextRule_sameRule : SameRule (nextRule s) (nextRule (withDiag i k c d s)) := by
  refine ⟨rfl, ?_⟩
  unfold nextRule
  rw [show (withDiag i k c d s).seq.li = s.seq.li from rfl]
  dsimp only
  split_ifs <;> rfl

theorem loopRule_sameRule : SameRule (loopRule s) (loopRule (withDiag i k c d s)) := by
  unfold loopRule
  rw [show (withDiag i k c d s).seq.lsub = s.seq.lsub from rfl]
  cases s.seq.lsub with
  | lDbl => exact ⟨rfl, rfl⟩
  | lA => exact combineRule_sameRule i k c d s _ _ _
  | lAcv => exact ⟨rfl, rfl⟩
  | lB => exact combineRule_sameRule i k c d s _ _ _
  | lBcv => exact ⟨rfl, rfl⟩
  | lNext => exact nextRule_sameRule i k c d s

/-- Every step of the unit keeps the relation (R199), phase by phase. -/
theorem unitStep_withDiag : OutcomesRelated SameButDiag (unitStep s) (unitStep (withDiag i k c d s)) := by
  have hencoder : SameButDiag (encoderStep s) (encoderStep (withDiag i k c d s)) := by
    rw [encoderStep_withDiag]
    rfl
  unfold unitStep
  rw [show (withDiag i k c d s).status = s.status from rfl, show (withDiag i k c d s).seq.q = s.seq.q from rfl]
  split_ifs with hb
  · cases hq : s.seq.q with
    | idle => rfl
    | eRun => exact hencoder
    | mEncA => exact hencoder
    | mEncB => exact hencoder
    | mTbl => exact issueRule_sameRule (isRule_isUop (.inl ⟨hq, rfl⟩)) (tableRule_sameRule i k c d s)
    | mScan => rfl
    | mInit => exact issueRule_sameRule (isRule_isUop (.inr (.inr (.inl ⟨hq, rfl⟩)))) ⟨rfl, rfl⟩
    | mLoop => exact issueRule_sameRule (isRule_isUop (.inr (.inr (.inr (.inl ⟨hq, rfl⟩))))) (loopRule_sameRule i k c d s)
    | mOut => exact issueRule_sameRule (isRule_isUop (.inr (.inr (.inr (.inr ⟨hq, rfl⟩))))) ⟨rfl, rfl⟩
  · rfl

end

/-- `MUL` and `MULS` are accepted alike, up to `diag` and the counters (R171, R173). -/
theorem acceptMultiply_sameButDiag (s : State) : SameButDiag (acceptMultiply false s) (acceptMultiply true s) := by
  unfold acceptMultiply
  split_ifs <;> rfl

/-- Settles O57: the step lemma is `unitStep_withDiag`, and the start is `acceptMultiply_sameButDiag`. -/
theorem countersNeverFeedBack : Obligations.CountersNeverFeedBack := by
  refine ⟨fun s t h => ?_, acceptMultiply_sameButDiag⟩
  obtain ⟨i, k, c, d, rfl⟩ := sameButDiag_iff.1 h
  exact unitStep_withDiag i k c d s

end Sys2Proof.Machine
end

section
/-! PROOFS. The family of spec/43_point_ops.md: what each micro-operation writes to its destination (R214 to R220), and what it leaves
unchanged (R212). -/

namespace Sys2Proof.Machine

/-! ### What a legal micro-operation writes, its sources holding values -/

section
variable {s : State} {dst src1 src2 : Slot}

/-- `DBL` (R215). -/
theorem exec_dbl {p : PD} (hw : (Instr.dbl dst src1 src2).wellFormed = true) (hp : slotPD s.slots src1 = some p) :
    exec (.dbl dst src1 src2) s = .next { s with
      slots := putPD s.slots dst (Config.double p), uops := s.uops ++ [encode (.dbl dst src1 src2)] } :=
  exec_uop_some rfl hw (by rw [uopSlots, hp, Option.map_some])

/-- `ADD` (R216). -/
theorem exec_add {p : PD} {t : PS} (hw : (Instr.add dst src1 src2).wellFormed = true) (hp : slotPD s.slots src1 = some p)
    (ht : slotPS s.slots src2 = some t) :
    exec (.add dst src1 src2) s = .next { s with
      slots := putPI s.slots dst (Config.cadd p t), uops := s.uops ++ [encode (.add dst src1 src2)] } :=
  exec_uop_some rfl hw (by rw [uopSlots, hp, ht, Option.bind_some, Option.map_some])

/-- `SUB` (R217). -/
theorem exec_sub {p : PD} {t : PS} (hw : (Instr.sub dst src1 src2).wellFormed = true) (hp : slotPD s.slots src1 = some p)
    (ht : slotPS s.slots src2 = some t) :
    exec (.sub dst src1 src2) s = .next { s with
      slots := putPI s.slots dst (Config.csub p t), uops := s.uops ++ [encode (.sub dst src1 src2)] } :=
  exec_uop_some rfl hw (by rw [uopSlots, hp, ht, Option.bind_some, Option.map_some])

/-- `TODBL` (R218). -/
theorem exec_todbl {p : PI} (hw : (Instr.todbl dst src1 src2).wellFormed = true) (hp : slotPI s.slots src1 = some p) :
    exec (.todbl dst src1 src2) s = .next { s with
      slots := putPD s.slots dst (Config.toDbl p), uops := s.uops ++ [encode (.todbl dst src1 src2)] } :=
  exec_uop_some rfl hw (by rw [uopSlots, hp, Option.map_some])

/-- `TOSTO` (R219). -/
theorem exec_tosto {p : PD} (hw : (Instr.tosto dst src1 src2).wellFormed = true) (hp : slotPD s.slots src1 = some p) :
    exec (.tosto dst src1 src2) s = .next { s with
      slots := putPS s.slots dst (Config.toSto p), uops := s.uops ++ [encode (.tosto dst src1 src2)] } :=
  exec_uop_some rfl hw (by rw [uopSlots, hp, Option.map_some])

/-- `TOEXT` (R220). -/
theorem exec_toext {p : PD} (hw : (Instr.toext dst src1 src2).wellFormed = true) (hp : slotPD s.slots src1 = some p) :
    exec (.toext dst src1 src2) s = .next { s with
      slots := putPX s.slots dst (Config.toExt p), uops := s.uops ++ [encode (.toext dst src1 src2)] } :=
  exec_uop_some rfl hw (by rw [uopSlots, hp, Option.map_some])

end

/-! ### The destination field -/

/-- The `DST` field of format P is the number of the destination slot (30_encoding R97). -/
theorem dstField_uopWord (pop : BitVec 4) (dst src1 src2 : Slot) :
    (uopWord pop dst src1 src2).extractLsb' 14 7 = slotNumber dst := by
  obtain ⟨-, -, hdst, -, -⟩ := fields_uopWord pop dst src1 src2
  exact hdst

/-- The word of a micro-operation names its destination in the `DST` field. -/
theorem dstField_encode {i : Instr} (hi : i.isCommand = false) : (encode i).extractLsb' 14 7 = slotNumber (uopDst i) := by
  cases i with
  | enc _ _ => cases hi
  | mul => cases hi
  | muls => cases hi
  | _ => exact dstField_uopWord _ _ _ _

/-! ### The obligations about micro-operations -/

/-- Settles O23: `exec_uop_next` says it of the destination slot, whose number is the `DST` field. -/
theorem microOpFrame : Obligations.MicroOpFrame := by
  intro i s t hi h
  obtain ⟨-, g, rfl, hother, -⟩ := exec_uop_next hi h
  refine ⟨rfl, fun x hx => hother x fun hdst => hx ?_, fun _ => rfl⟩
  rw [dstField_encode hi, hdst]

/-- Settles O14: `IDENT` reads no slot. -/
theorem identWritesTheIdentity : Obligations.IdentWritesTheIdentity :=
  fun _ => exec_uop_some rfl rfl rfl

/-- Settles O15: the two destinations of `DBL`. -/
theorem dblWritesTheDouble : Obligations.DblWritesTheDouble :=
  fun _ _ => ⟨fun hp => exec_dbl rfl hp, fun hp => exec_dbl rfl hp⟩

/-- Settles O16: the three operand forms of `ADD`, each with its row of words. -/
theorem addWritesTheMixedSum : Obligations.AddWritesTheMixedSum := by
  intro s p t
  refine ⟨fun j hj hp ht => ?_, fun j hp ht => ?_, fun j hp => ?_⟩
  · rw [← encode_add_d_ta]
    exact exec_add (decide_eq_true hj) hp ht
  · rw [← encode_add_acc_ta]
    exact exec_add rfl hp ht
  · rw [← encode_add_acc_tb]
    exact exec_add rfl hp rfl

/-- Settles O17: the two operand forms of `SUB`, each with its row of words. -/
theorem subWritesTheMixedDifference : Obligations.SubWritesTheMixedDifference := by
  intro s p t
  refine ⟨fun j hp ht => ?_, fun j hp => ?_⟩
  · rw [← encode_sub_acc_ta]
    exact exec_sub rfl hp ht
  · rw [← encode_sub_acc_tb]
    exact exec_sub rfl hp rfl

/-- Settles O18: the two destinations of `TODBL`. -/
theorem todblWritesTheDoublingForm : Obligations.TodblWritesTheDoublingForm :=
  fun _ _ hp => ⟨exec_todbl rfl hp, exec_todbl rfl hp⟩

/-- Settles O19: entry 0 from `AIN`, the others from `E` with their row of words. -/
theorem tostoWritesTheStorageForm : Obligations.TostoWritesTheStorageForm := by
  refine fun s p => ⟨fun hp => exec_tosto rfl hp, fun j hj hp => ?_⟩
  rw [← encode_tosto_e]
  exact exec_tosto (decide_eq_true hj) hp

/-- Settles O20: the one form of `TOEXT`. -/
theorem toextWritesTheExternalForm : Obligations.ToextWritesTheExternalForm :=
  fun _ _ hp => exec_toext rfl hp

end Sys2Proof.Machine
end

section
/-! PROOFS. The family of spec/60_exceptions.md: the order of the checks on a `CMD` write (R235), the precise fault (R236), and the fault
state that only reset leaves (R238). -/

namespace Sys2Proof.Machine

/-! ### The word's own checks: `OP` and the reserved bits -/

section
variable {v : Word}

/-- A word with an `OP` that no command has (30_encoding R94). -/
theorem decodeCmd_illegalOp (h : v.extractLsb' 0 4 ≠ 1 ∧ v.extractLsb' 0 4 ≠ 2 ∧ v.extractLsb' 0 4 ≠ 3) :
    decodeCmd v = .error .illegalOp := by
  obtain ⟨h1, h2, h3⟩ := h
  simp only [decodeCmd, h1, h2, h3, if_false]

/-- A word with the `OP` of `ENC` and a reserved bit (R92). -/
theorem decodeCmd_enc_reservedBits (hop : v.extractLsb' 0 4 = 1) (hr : v.extractLsb' 9 23 ≠ 0) :
    decodeCmd v = .error .reservedBits := by
  simp only [decodeCmd, hop, hr, if_true, if_false]

/-- A word with the `OP` of `ENC` and no reserved bit (R92). -/
theorem decodeCmd_enc (hop : v.extractLsb' 0 4 = 1) (hr : v.extractLsb' 9 23 = 0) :
    decodeCmd v = .ok (.enc (v.extractLsb' 4 4) (selOfBit v[8])) := by
  simp only [decodeCmd, hop, hr, if_true]

/-- A word with the `OP` of `MUL` or `MULS` and a reserved bit (R93). -/
theorem decodeCmd_multiply_reservedBits (hop : v.extractLsb' 0 4 = 2 ∨ v.extractLsb' 0 4 = 3)
    (hr : v.extractLsb' 4 28 ≠ 0) : decodeCmd v = .error .reservedBits := by
  rcases hop with hop | hop <;> simpa [decodeCmd, hop] using hr

/-- A word with the `OP` of `MUL` or `MULS` and no reserved bit (R93). -/
theorem decodeCmd_multiply (hop : v.extractLsb' 0 4 = 2 ∨ v.extractLsb' 0 4 = 3) (hr : v.extractLsb' 4 28 = 0) :
    ∃ i, (i = .mul ∨ i = .muls) ∧ decodeCmd v = .ok i := by
  rcases hop with hop | hop
  · exact ⟨.mul, .inl rfl, by simp [decodeCmd, hop, hr]⟩
  · exact ⟨.muls, .inr rfl, by simp [decodeCmd, hop, hr]⟩

/-- A `CMD` write of a word that is no command records its fault with `ERRSEL` 0 (R232, R237). -/
theorem writeCmd_error {e : CmdError} {s : State} (h : AcceptsCommand s) (hd : decodeCmd v = .error e) :
    writeCmd v s = .next (raiseFault (cmdErrorCause e) .a s) := by
  simp [writeCmd, commandsIgnored_eq_false.2 h, hd]

end

/-! ### The command's own checks: the width and the range -/

section
variable {s : State} {w : BitVec 4} {sel : Sel} {i : Instr}

/-- `ENC` with an illegal width (R233). -/
theorem exec_enc_errWin (h : AcceptsCommand s) (hw : legalWidth w = false) :
    exec (.enc w sel) s = .next (raiseFault .errWin .a s) := by
  simp [exec, execEnc, commandsIgnored_eq_false.2 h, widthInRange, hw]

/-- `ENC` of a scalar out of range, which `ERRSEL` names (R234). -/
theorem exec_enc_errRange (h : AcceptsCommand s) (hw : legalWidth w = true) (hr : (scalarOf sel s)[255] = true) :
    exec (.enc w sel) s = .next (raiseFault .errRange sel s) := by
  simp [exec, execEnc, commandsIgnored_eq_false.2 h, widthInRange, hw, hr]

/-- `MUL` or `MULS` with `SA` out of range (R234). -/
theorem exec_multiply_errRange_a (hi : i = .mul ∨ i = .muls) (h : AcceptsCommand s) (ha : s.sa[255] = true) :
    exec i s = .next (raiseFault .errRange .a s) := by
  rcases hi with rfl | rfl <;> simp [exec, execMul, execMuls, acceptMultiply, commandsIgnored_eq_false.2 h, ha]

/-- `MUL` or `MULS` with `SB` alone out of range (R234). -/
theorem exec_multiply_errRange_b (hi : i = .mul ∨ i = .muls) (h : AcceptsCommand s) (ha : s.sa[255] = false)
    (hb : s.sb[255] = true) : exec i s = .next (raiseFault .errRange .b s) := by
  rcases hi with rfl | rfl <;> simp [exec, execMul, execMuls, acceptMultiply, commandsIgnored_eq_false.2 h, ha, hb]

/-- An outcome that starts a command: `BUSY` is 1 and `ERR` still 0 (R120, 42_multiplier R173). -/
def Starts (o : Host.Outcome State Fault Refusal) : Prop :=
  ∃ t, o = .next t ∧ t.status.busy = true ∧ t.status.err = false

/-- `ENC` that passes its checks starts. -/
theorem starts_exec_enc (h : AcceptsCommand s) (hw : legalWidth w = true) (hr : (scalarOf sel s)[255] = false) :
    Starts (exec (.enc w sel) s) := by
  have hx := exec_enc_accepted h hw hr
  obtain ⟨-, he⟩ := h
  exact ⟨_, hx, rfl, he⟩

/-- `MUL` or `MULS` that passes its checks starts. -/
theorem starts_exec_multiply (hi : i = .mul ∨ i = .muls) (h : AcceptsCommand s) (ha : s.sa[255] = false)
    (hb : s.sb[255] = false) : Starts (exec i s) := by
  obtain ⟨diag, hx⟩ := exec_multiply_accepted hi h ha hb
  obtain ⟨-, he⟩ := h
  exact ⟨_, hx, by rw [mulAccepted_frame], by rw [mulAccepted_frame]; exact he⟩

end

/-- Settles O9: the word's own checks are those of `decodeCmd`, and the command's checks follow in `exec`. -/
theorem commandChecksAreMadeInOrder : Obligations.CommandChecksAreMadeInOrder := by
  intro s v h
  refine ⟨fun hop => writeCmd_error h (decodeCmd_illegalOp hop),
    fun hop hr => writeCmd_error h (decodeCmd_enc_reservedBits hop hr),
    fun hop hr => writeCmd_error h (decodeCmd_multiply_reservedBits hop hr), fun hop hr => ?enc, fun hop hr => ?multiply⟩
  case enc =>
    rw [writeCmd_decoded h (decodeCmd_enc hop hr)]
    refine ⟨fun hw => exec_enc_errWin h ?_, fun lo hi => ?_⟩
    · rw [Bool.eq_false_iff, ne_eq, legalWidth_iff]
      omega
    · have hw := (legalWidth_iff _).2 ⟨lo, hi⟩
      exact ⟨exec_enc_errRange h hw, starts_exec_enc h hw⟩
  case multiply =>
    obtain ⟨i, hi, hd⟩ := decodeCmd_multiply hop hr
    rw [writeCmd_decoded h hd]
    exact ⟨exec_multiply_errRange_a hi h, exec_multiply_errRange_b hi h, starts_exec_multiply hi h⟩

/-! ### The recorded fault -/

/-- The causes have the codes 1 to 4 (R231). -/
theorem faultCode_bounds (c : FaultCause) : 1 ≤ (faultCode c).toNat ∧ (faultCode c).toNat ≤ 4 := by
  cases c <;> decide

/-- An outcome that records a fault in the state `s`; only a range fault names `SB` (R234, R236). -/
def Faults (s : State) (o : Host.Outcome State Fault Refusal) : Prop :=
  ∃ c sel, (sel = .b → c = .errRange) ∧ o = .next (raiseFault c sel s)

/-- `MUL` and `MULS` fault or start (R173, R234). -/
theorem exec_multiply_faults_or_starts {i : Instr} {s : State} (hi : i = .mul ∨ i = .muls) (h : AcceptsCommand s) :
    Faults s (exec i s) ∨ Starts (exec i s) := by
  cases ha : s.sa[255] with
  | true => exact .inl ⟨.errRange, .a, fun _ => rfl, exec_multiply_errRange_a hi h ha⟩
  | false =>
    cases hb : s.sb[255] with
    | true => exact .inl ⟨.errRange, .b, fun _ => rfl, exec_multiply_errRange_b hi h ha hb⟩
    | false => exact .inr (starts_exec_multiply hi h ha hb)

/-- A command faults or starts in a unit that accepts it (R233, R234). -/
theorem exec_command_faults_or_starts {i : Instr} {s : State} (hi : i.isCommand = true) (h : AcceptsCommand s) :
    Faults s (exec i s) ∨ Starts (exec i s) := by
  cases i with
  | enc w sel =>
    cases hw : legalWidth w with
    | false => exact .inl ⟨.errWin, .a, nofun, exec_enc_errWin h hw⟩
    | true =>
      cases hr : (scalarOf sel s)[255] with
      | true => exact .inl ⟨.errRange, sel, fun _ => rfl, exec_enc_errRange h hw hr⟩
      | false => exact .inr (starts_exec_enc h hw hr)
  | mul => exact exec_multiply_faults_or_starts (.inl rfl) h
  | muls => exact exec_multiply_faults_or_starts (.inr rfl) h
  | _ => cases hi

/-- A `CMD` write faults or starts a command in a unit that accepts one (R235). -/
theorem writeCmd_faults_or_starts {s : State} (v : Word) (h : AcceptsCommand s) :
    Faults s (writeCmd v s) ∨ Starts (writeCmd v s) := by
  cases hd : decodeCmd v with
  | error e => exact .inl ⟨cmdErrorCause e, .a, nofun, writeCmd_error h hd⟩
  | ok i =>
    rw [writeCmd_decoded h hd]
    exact exec_command_faults_or_starts (decodeCmd_isCommand hd) h

/-- Settles O11: a write that leaves `ERR` at 1 started no command, so it recorded a fault. -/
theorem faultChangesStatusOnly : Obligations.FaultChangesStatusOnly := by
  intro s t v h ht herr
  obtain ⟨c, sel, hsel, hw⟩ | ⟨u, hw, -, hu⟩ := writeCmd_faults_or_starts v h
  · obtain ⟨lo, hi⟩ := faultCode_bounds c
    cases hw.symm.trans ht
    exact ⟨faultCode c, sel, lo, hi, fun hb => congrArg faultCode (hsel hb), rfl⟩
  · cases hw.symm.trans ht
    simp [hu] at herr

/-! ### The fault state is sticky -/

/-- An encoder step keeps `STATUS` or ends the command (40_naf_encoder R128). -/
theorem encoderStep_status (s : State) :
    (encoderStep s).status = s.status ∨ (encoderStep s).status = { s.status with busy := false, done := true } := by
  unfold encoderStep
  split_ifs
  · unfold endEncoding
    split
    · exact .inr rfl
    all_goals exact .inl rfl
  · exact .inl rfl

/-- A unit step keeps `STATUS` or ends the command (42_multiplier R172, R191). -/
theorem unitStep_status {s t : State} (h : unitStep s = .next t) :
    t.status = s.status ∨ t.status = { s.status with busy := false, done := true } := by
  obtain ⟨rfl, -⟩ | ⟨-, -, rfl⟩ | ⟨-, r, hr, hi⟩ := unitStep_next h
  · exact .inl rfl
  · exact encoderStep_status s
  · have ht : t.status = r.2.status := by
      obtain ⟨-, rfl⟩ | ⟨i, g, -, -, rfl, -⟩ := issueRule_next (isRule_isUop hr) hi <;> rfl
    rw [ht]
    obtain ⟨hs, -⟩ | ⟨hs, -⟩ | ⟨hs, -⟩ := isRule_control hr
    · exact .inl hs
    · exact .inl hs
    · exact .inr hs

/-- What a host move other than a reset can do to `STATUS` (70_reset R268): nothing, or what a `CMD` write or a unit step does. -/
theorem hostMove_status {a : HostAction} {s t : State} (ha : a ≠ .reset) (h : hostMove a s = .next t) :
    t.status = s.status ∨ (∃ v, writeCmd v s = .next t) ∨ ∃ q, unitStep { s with host := q } = .next t := by
  cases a with
  | write addr v =>
    obtain hw | hw := hostWrite_next h
    · have hs := congrArg State.status hw
      exact .inl hs
    · exact .inr (.inl ⟨v, hw⟩)
  | read addr =>
    cases h
    exact .inl rfl
  | setPoint p =>
    simp only [hostMove, hostSetPoint] at h
    split_ifs at h
    cases h
    exact .inl rfl
  | readPoint =>
    simp only [hostMove, hostReadPoint] at h
    split_ifs at h
    split at h <;> cases h
    exact .inl rfl
  | poll =>
    simp only [hostMove, hostPoll] at h
    split_ifs at h
    · exact .inr (.inr ⟨_, h⟩)
    · cases h
      exact .inl rfl
  | tick => exact .inr (.inr ⟨s.host, h⟩)
  | reset => exact absurd rfl ha

/-- `ERR`, `ERRCODE` and `ERRSEL` are the same in both (10_state R24). -/
def SameFault (x y : Status) : Prop := y.err = x.err ∧ y.errCode = x.errCode ∧ y.errSel = x.errSel

/-- Equal `STATUS`, equal fault. -/
theorem SameFault.of_eq {x y : Status} (h : y = x) : SameFault x y := by
  subst h
  exact ⟨rfl, rfl, rfl⟩

/-- A unit step clears no fault. -/
theorem unitStep_sameFault {s t : State} (h : unitStep s = .next t) : SameFault s.status t.status := by
  obtain hs | hs := unitStep_status h
  · exact .of_eq hs
  · rw [hs]
    exact ⟨rfl, rfl, rfl⟩

/-- In a faulted unit no host move but a reset changes the fault: its `CMD` writes are ignored (R238). -/
theorem hostMove_sameFault {a : HostAction} {s t : State} (he : s.status.err = true) (ha : a ≠ .reset)
    (h : hostMove a s = .next t) : SameFault s.status t.status := by
  obtain hs | ⟨v, hw⟩ | ⟨q, hu⟩ := hostMove_status ha h
  · exact .of_eq hs
  · rw [writeCmd_ignored (by simp [commandsIgnored, he])] at hw
    cases hw
    exact .of_eq rfl
  · exact unitStep_sameFault (s := { s with host := q }) hu

/-- A step of a faulted machine that is no reset keeps the fault: a word at the point unit, a host move, or a unit step. -/
theorem step_sameFault {s t : State} (he : s.status.err = true) (h : step s = .next t)
    (hr : ∀ rest, s.port = none → s.host ≠ .reset :: rest) : SameFault s.status t.status := by
  cases hp : s.port with
  | some w =>
    rw [step_port hp] at h
    have hs := congrArg State.status (pointUnit_next h)
    exact .of_eq hs
  | none =>
    cases hh : s.host with
    | cons a rest =>
      rw [step_host hp hh] at h
      have ha : a ≠ .reset := fun e => hr rest hp (e ▸ hh)
      exact hostMove_sameFault (s := { s with host := rest }) he ha h
    | nil =>
      rw [step_unit hp hh] at h
      exact unitStep_sameFault h

/-- Settles O12: the fault a step keeps is there before it. -/
theorem faultStateIsSticky : Obligations.FaultStateIsSticky := by
  intro s t he h hr
  obtain ⟨herr, hcode, hsel⟩ := step_sameFault he h hr
  exact ⟨herr.trans he, hcode, hsel⟩

end Sys2Proof.Machine
end

section
/-! PROOFS. The family of spec/70_reset_and_hazards.md: the host's moves at the point unit (R268, R271), and reset (R260, R261). -/

namespace Sys2Proof.Machine

/-! ### The host at the point unit -/

/-- The host reads an empty `ROUT`: the model's fault (10_state R45; log entry 11). -/
theorem step_readPoint_empty {s : State} {rest : List HostAction} (hp : s.port = none) (hh : s.host = .readPoint :: rest)
    (hb : s.status.busy = false) (hr : s.slots.rout = none) : step s = .fault .emptySlot := by
  rw [step_host hp hh]
  simp [hostMove, hostReadPoint, hb, hr]

/-- While the unit is busy the host has no move that reaches a point slot (R271; log entry 12). -/
theorem step_pointAccess_busy {s : State} {a : HostAction} {rest : List HostAction} (hp : s.port = none)
    (hh : s.host = a :: rest) (hb : s.status.busy = true) (ha : a = .readPoint ∨ ∃ p, a = .setPoint p) :
    step s = .refused .pointSlotWhileBusy := by
  rw [step_host hp hh]
  obtain rfl | ⟨p, rfl⟩ := ha
  · simp [hostMove, hostReadPoint, hb]
  · simp [hostMove, hostSetPoint, hb]

/-- Settles O29, by `BUSY` and, for the read, by what `ROUT` holds. -/
theorem hostPointAccess : Obligations.HostPointAccess := by
  intro s p rest hp
  constructor
  · intro hset
    exact ⟨step_setPoint hp hset, fun hb => step_pointAccess_busy hp hset hb (.inr ⟨p, rfl⟩)⟩
  · intro hread
    exact ⟨fun _ hb hr => step_readPoint hp hread hb hr, step_readPoint_empty hp hread,
      fun hb => step_pointAccess_busy hp hread hb (.inl rfl)⟩

/-! ### Reset -/

/-- A host move `reset` applies the reset, whatever the unit does (R260). -/
theorem step_reset {s : State} {rest : List HostAction} (hp : s.port = none) (hh : s.host = .reset :: rest) :
    step s = .next (applyReset { s with host := rest }) := by
  rw [step_host hp hh, hostMove]

/-- Settles O31: `applyReset` takes nothing from the old state but the host's own data. -/
theorem resetEndsACommandAndClearsTheUnit : Obligations.ResetEndsACommandAndClearsTheUnit := by
  intro s rest hp hh
  rw [step_reset hp hh, applyReset]

end Sys2Proof.Machine
end
